-- ==== Sys2Proof/Word.lean ====
section
/-! DEFINITION. The widths of QAXPY's values (spec/00_scope.md R8; spec/10_state.md R20, R21). -/

namespace Sys2Proof

/-- A byte of data memory. -/
abbrev Byte := BitVec 8

/-- A Q15 value: a 16-bit two's complement pattern, every one of them legal (R20). -/
abbrev Q15 := BitVec 16

/-- The 32-bit two's complement intermediate of the multiply and the add (R21). -/
abbrev W32 := BitVec 32

/-- A command register as the host sees it, and a working register of at most 32 bits (R22, R32). -/
abbrev Word := BitVec 32

/-- A micro-operation code, the content of `upc` (spec/30_encoding.md R91). -/
abbrev UopCode := BitVec 4

/-- A host access word, format H36 (spec/30_encoding.md R93). -/
abbrev HostWord := BitVec 36

end Sys2Proof
end

