-- ==== Sys2Proof/Config.lean ====
section
/-! DEFINITION. What is fixed when a QAXPY instance is built (spec/00_scope.md R6), the platform's memory map
(spec/20_memory.md R68), and the values the spec leaves free. -/

namespace Sys2Proof

/-- What the platform lets the engine do with a region of the address space (R65, R67).
DESIGN CHOICE (log 2): the spec says only that the platform decides. -/
inductive RegionKind where
  /-- Ordinary memory the engine may read and write. -/
  | plain
  /-- Ordinary memory the engine may only read; the host fills it. -/
  | engineReadOnly
  /-- A device: its accesses may have side effects, so no buffer may lie in it (R67). -/
  | device
  deriving DecidableEq, Repr

/-- One region of the platform's memory map: `size` bytes from `base`. -/
structure Region where
  base : Nat
  size : Nat
  kind : RegionKind
  deriving DecidableEq, Repr

/-- The parameters of one instance (R6) and the memory map it stands in. They are plain data which State carries
and no step changes, so that a statement about every state is a statement about every configuration (log 1). -/
structure Config where
  /-- `VLMAX`: the number of lanes, 1 to 65535. -/
  vlmax : Nat
  /-- `HAS_VECTOR`: whether the data-parallel hardware exists. -/
  hasVector : Bool
  /-- `AW`: the address width in bits, 2 to 32. -/
  aw : Nat
  /-- `CW`: the width of the element count in bits, 1 to 32. -/
  cw : Nat
  /-- The memory map, regions in rising order; an address in no region is not memory. -/
  regions : List Region
  deriving DecidableEq, Repr

namespace Config

/-- The default parameters of R6, on a platform whose whole address space is plain memory (log 2). -/
def default : Config :=
  { vlmax := 4, hasVector := true, aw := 32, cw := 32, regions := [⟨0, 2 ^ 32, .plain⟩] }

/-- FREE VALUE (log 6): the choice the hardware makes at the SETVL with this number, when the state's own list of
draws is used up (spec/41_lane_uops.md R141). -/
opaque freeDraw : Nat → Nat

/-- FREE VALUE (log 5): what cell `k` of the working and lane registers holds after the reset with this number
(spec/10_state.md R40: "unspecified"). -/
opaque unspecified : (count k : Nat) → BitVec 32

/-- FREE VALUE (log 8): the result of WADD where the sum does not fit 32 bits (spec/40_arith_units.md R112). -/
opaque waddOverflow : Q15 → W32 → W32

/-- FREE VALUE (log 9): the result of `rem - vl` where `vl > rem` (spec/42_engine.md R173). -/
opaque remUnderflow : (rem vl : Nat) → Nat

/-- FREE VALUE (log 14): what a byte of Y reads as to the host while the run that writes Y is in progress
(spec/20_memory.md R76). -/
opaque racyByte : Nat → Byte

end Config

end Sys2Proof
end

