-- ==== Sys2Proof/Syntax.lean ====
section
/-! DEFINITION. The instructions of QAXPY: one constructor for each row of spec/opcode_table.json, nine
micro-operations (spec/30_encoding.md R92) and four host access rows (R95). -/

namespace Sys2Proof

/-- The eight command registers, indices 0 to 7 in this order (spec/10_state.md R22). -/
inductive CReg where
  | ctrl
  | status
  | n
  | alpha
  | aBase
  | bBase
  | yBase
  | cap
  deriving DecidableEq, Repr

/-- One micro-operation of the engine or one access of the host. The bits of a host word that the spec says are
ignored are kept as an argument, so that no bit of a word is lost by decoding it (log 20). -/
inductive Instr where
  /-- CHKN, code 0x1: the loop test (R172). -/
  | chkn
  /-- SETVL, code 0x2: request the group width (R141). -/
  | setvl
  /-- VLDA, code 0x3: load the group's elements of A (R142). -/
  | vlda
  /-- VLDB, code 0x4: load the group's elements of B (R143). -/
  | vldb
  /-- VWMUL, code 0x5: widening multiply by the broadcast scalar (R144). -/
  | vwmul
  /-- VWADD, code 0x6: widening add of A into the product (R145). -/
  | vwadd
  /-- VNSAT, code 0x7: saturating narrow with shift 0 (R146). -/
  | vnsat
  /-- VSTY, code 0x8: store the group's results (R147). -/
  | vsty
  /-- ADV, code 0x9: advance the pointers and the count (R173). -/
  | adv
  /-- START.S: start the scalar kernel; `ignored` is data bits 31:2 (R171, R95). -/
  | startS (ignored : BitVec 30)
  /-- START.V: start the vectorized kernel; `ignored` is data bits 31:2 (R171, R95). -/
  | startV (ignored : BitVec 30)
  /-- WR reg, data: write a command register (R178). -/
  | wr (reg : CReg) (data : Word)
  /-- RD reg: read a command register; `ignored` is the data field (R179, R93). -/
  | rd (reg : CReg) (ignored : Word)
  deriving DecidableEq, Repr

end Sys2Proof
end

