-- ==== Sys2Proof/WellFormed.lean ====
section
/-! DEFINITION. Which instructions are well formed: those some word decodes to. The rows of the host command map are
tested in order (spec/30_encoding.md R95), so a write of CTRL with the START bit set is the row START.S or START.V,
never the row WR. -/

namespace Sys2Proof

/-- A well-formed instruction is one whose own word decodes to it. -/
def Instr.wellFormed : Instr → Bool
  | .wr .ctrl data => !data.getLsbD 0
  | .wr .status _ => true
  | .wr .n _ => true
  | .wr .alpha _ => true
  | .wr .aBase _ => true
  | .wr .bBase _ => true
  | .wr .yBase _ => true
  | .wr .cap _ => true
  | .chkn => true
  | .setvl => true
  | .vlda => true
  | .vldb => true
  | .vwmul => true
  | .vwadd => true
  | .vnsat => true
  | .vsty => true
  | .adv => true
  | .startS _ => true
  | .startV _ => true
  | .rd _ _ => true

end Sys2Proof
end

