-- ==== Sys2Proof/Decode.lean ====
section
/-! DEFINITION. The two formats of QAXPY and their decoder and encoder (spec/30_encoding.md R90 to R98). -/

namespace Sys2Proof

/-- A thing that is decoded: the length is known from its kind (R98). -/
inductive CodeWord where
  /-- Format M4: a micro-operation code, the content of `upc` (R91). -/
  | m4 (code : UopCode)
  /-- Format H36: one host access of the command register file (R93). -/
  | h36 (word : HostWord)
  deriving DecidableEq, Repr

/-- Why a code word stands for no instruction. No host word is ever rejected (R97). -/
inductive DecodeReject where
  /-- Code 0x0 is IDLE: not a micro-operation (R92). -/
  | idle
  /-- Codes 0xA to 0xF are reserved (R97). -/
  | reservedCode (code : UopCode)
  deriving DecidableEq, Repr

/-- The micro-operation code map (R92). -/
def decodeUop (code : UopCode) : Except DecodeReject Instr :=
  match code.toNat with
  | 0x0 => .error .idle
  | 0x1 => .ok .chkn
  | 0x2 => .ok .setvl
  | 0x3 => .ok .vlda
  | 0x4 => .ok .vldb
  | 0x5 => .ok .vwmul
  | 0x6 => .ok .vwadd
  | 0x7 => .ok .vnsat
  | 0x8 => .ok .vsty
  | 0x9 => .ok .adv
  | _ => .error (.reservedCode code)

/-- The command register with this index (spec/10_state.md R22). -/
def CReg.ofIndex (idx : BitVec 3) : CReg :=
  match idx.toNat with
  | 0 => .ctrl
  | 1 => .status
  | 2 => .n
  | 3 => .alpha
  | 4 => .aBase
  | 5 => .bBase
  | 6 => .yBase
  | _ => .cap

/-- The index of a command register (spec/10_state.md R22). -/
def CReg.index : CReg → BitVec 3
  | .ctrl => 0
  | .status => 1
  | .n => 2
  | .alpha => 3
  | .aBase => 4
  | .bBase => 5
  | .yBase => 6
  | .cap => 7

/-- Bit 35 of a host word: 1 write, 0 read (R93). -/
def HostWord.we (w : HostWord) : Bool := w.getLsbD 35

/-- Bits 34:32 of a host word: the command register's index (R93). -/
def HostWord.idx (w : HostWord) : BitVec 3 := w.extractLsb' 32 3

/-- Bits 31:0 of a host word: the value written (R93). -/
def HostWord.data (w : HostWord) : Word := w.extractLsb' 0 32

/-- The host command map, its rows tested in order (R95). Every host word decodes (R97). -/
def decodeHost (w : HostWord) : Instr :=
  if w.we && w.idx == 0 && w.data.getLsbD 0 && !w.data.getLsbD 1 then .startS (w.data.extractLsb' 2 30)
  else if w.we && w.idx == 0 && w.data.getLsbD 0 && w.data.getLsbD 1 then .startV (w.data.extractLsb' 2 30)
  else if w.we then .wr (CReg.ofIndex w.idx) w.data
  else .rd (CReg.ofIndex w.idx) w.data

/-- The decoder: total on both formats, rejecting by name. -/
def decode : CodeWord → Except DecodeReject Instr
  | .m4 code => decodeUop code
  | .h36 word => .ok (decodeHost word)

/-- A host word from its fields `we`, `idx`, `data` (R93). -/
def hostWord (we : BitVec 1) (idx : BitVec 3) (data : Word) : HostWord := we ++ idx ++ data

/-- The encoder, from the same tables R92, R93 and R95. -/
def encode : Instr → CodeWord
  | .chkn => .m4 0x1
  | .setvl => .m4 0x2
  | .vlda => .m4 0x3
  | .vldb => .m4 0x4
  | .vwmul => .m4 0x5
  | .vwadd => .m4 0x6
  | .vnsat => .m4 0x7
  | .vsty => .m4 0x8
  | .adv => .m4 0x9
  | .startS ignored => .h36 (hostWord 1 0 (ignored ++ 0b01#2))
  | .startV ignored => .h36 (hostWord 1 0 (ignored ++ 0b11#2))
  | .wr reg data => .h36 (hostWord 1 reg.index data)
  | .rd reg ignored => .h36 (hostWord 0 reg.index ignored)

/-- The code word whose bits are `w` in `nbits` bits: an M4 code in at most one byte, a host word in more (log 21). -/
def CodeWord.ofTable (nbits w : Nat) : Option CodeWord :=
  if nbits ≤ 8 then if w < 2 ^ 4 then some (.m4 (BitVec.ofNat 4 w)) else none
  else if w < 2 ^ 36 then some (.h36 (BitVec.ofNat 36 w)) else none

/-- The instruction the decoder reads from bits numbered as spec/opcode_table.json numbers them. -/
def decodeTableWord (nbits w : Nat) : Option Instr :=
  match CodeWord.ofTable nbits w with
  | none => none
  | some c =>
    match decode c with
    | .ok i => some i
    | .error _ => none

end Sys2Proof
end

