-- ==== Sys2Proof/Machine/State.lean ====
section
/-! DEFINITION. The state of one QAXPY instance (spec/10_state.md R41), the reasons a step can stop, and the state
after reset (R40). -/

namespace Sys2Proof.Machine

open Sys2Proof

/-- Data memory: the bytes that differ from what an unlisted address reads as, in strictly rising order of address
(R37; log 3). -/
abbrev Memory := List Host.Cell

/-- The argument registers of the command register file (R25 to R29). `CTRL` has no storage (R23), `STATUS` is
`done` and `upc` (R24), `CAP` is the configuration (R30). -/
structure CmdRegs where
  /-- `N`: bits CW-1:0 hold the element count, the others are 0 (R25). -/
  n : Word
  /-- `ALPHA`: bits 15:0, the only ones stored (R26). -/
  alpha : Q15
  /-- `A_BASE`: bits AW-1:1, the others are 0 (R27). -/
  aBase : Word
  /-- `B_BASE` (R28). -/
  bBase : Word
  /-- `Y_BASE` (R29). -/
  yBase : Word
  deriving DecidableEq, Repr

/-- The working registers of the sequencer (R32). Those of CW or AW bits have the bits above at 0. -/
structure WorkRegs where
  /-- Elements still to process, CW bits. -/
  rem : Word
  /-- Byte address of the next element of A, AW bits. -/
  pa : Word
  /-- Byte address of the next element of B, AW bits. -/
  pb : Word
  /-- Byte address of the next element of Y, AW bits. -/
  py : Word
  /-- The latched multiplier `alpha_l`. -/
  alphaL : Q15
  /-- The largest group width this run may use, CW bits. -/
  vlim : Word
  /-- The width of the current group, CW bits. -/
  vl : Word
  deriving DecidableEq, Repr

/-- One lane and its element of each lane register (R35, spec/41_lane_uops.md R140). -/
structure Lane where
  /-- The element of `VA`. -/
  va : Q15
  /-- The element of `VB`. -/
  vb : Q15
  /-- The element of `VW`: the product, then the sum. -/
  vw : W32
  /-- The element of `VY`. -/
  vy : Q15
  deriving DecidableEq, Repr

/-- One move of an agent: what can happen next at an instance (spec/42_engine.md R187, spec/70 R230; log 11). -/
inductive Move where
  /-- The engine takes its next step; an idle engine has none. -/
  | engine
  /-- The host makes one access of the command register file. -/
  | access (word : HostWord)
  /-- The host writes one byte of memory. -/
  | store (addr : Word) (value : Byte)
  /-- The host reads one byte of memory. -/
  | load (addr : Word)
  /-- The reset input is asserted and released. -/
  | reset
  deriving DecidableEq, Repr

/-- The arguments a START latches: a copy the model keeps to know which bytes are the buffers of the run in
progress (spec/20_memory.md R64, R76; log 15). -/
structure Launch where
  n : Word
  aBase : Word
  bBase : Word
  yBase : Word
  deriving DecidableEq, Repr

/-- The MODEL's own fields, not the spec's: the surroundings of the instance. -/
structure Env where
  /-- The moves still to come, the next one first; when it is empty the engine runs alone (log 11). -/
  schedule : List Move
  /-- The hardware's choices at the next SETVLs, the next one first; when it is empty they are free values (log 6). -/
  draws : List Nat
  /-- The counter the free values are applied to (log 6). -/
  freeCount : Nat
  /-- The value the last read gave the host; none where no read has been made (log 16). -/
  hostRead : Option Word
  /-- The arguments latched at the last START (log 15). -/
  launch : Launch
  deriving DecidableEq, Repr

/-- The whole state of one QAXPY instance, with the memory it shares with the host (R41). -/
structure State where
  /-- The parameters of the instance: no step changes them (log 1). -/
  cfg : Config
  /-- The argument registers (R25 to R29). -/
  cmd : CmdRegs
  /-- `STATUS.DONE` (R24). -/
  done : Bool
  /-- The micro-program counter (R33). -/
  upc : UopCode
  /-- The working registers (R32). -/
  work : WorkRegs
  /-- The lanes 0 to VLMAX-1 with their elements of VA, VB, VW, VY (R35). -/
  lanes : List Lane
  /-- Data memory (R37). -/
  mem : Memory
  /-- The model's own fields. -/
  env : Env
  deriving DecidableEq, Repr

/-- Faults: none. "QAXPY raises no synchronous exception" (spec/60_exceptions.md R210), so no constructor. -/
inductive Fault where
  deriving DecidableEq, Repr

/-- Why a step gets no meaning. Each is a case the spec calls undefined or reserved and asks a model to refuse
(spec/93_implementation_defined.md); all are SAFE: nothing can be proved about what the hardware does there. -/
inductive Refusal where
  /-- Raised by exec's arm of an instruction that has no meaning yet. Safe. -/
  | notModelled (mnemonic : String)
  /-- Raised by the fetch of a reserved code in `upc` (spec/30_encoding.md R97, X10). Safe. -/
  | reservedUop (code : UopCode)
  /-- Raised by a START of the idle engine: a buffer of n elements is not memory the platform admits, or runs past
  the top of the address space (spec/20_memory.md R65, X1, X14). Safe. -/
  | bufferNotAdmitted
  /-- Raised by a START of the idle engine: a buffer lies in a device (spec/20_memory.md R67, X13). Safe. -/
  | bufferOnDevice
  /-- Raised by a START of the idle engine: Y overlaps A or B other than in place (spec/20_memory.md R66, X2). Safe. -/
  | bufferAliased
  /-- Raised by VLDA, VLDB and VSTY: an address of the group is not memory the platform admits for the access
  (spec/20_memory.md R65, X1). No run that a START began meets it. Safe. -/
  | accessNotAdmitted
  /-- Raised by a host write to a buffer of the run in progress (spec/20_memory.md R76, X3). Safe. -/
  | hostWritesBuffer
  /-- Raised by a host read or write of an address that is not memory: what is there is the platform's
  (spec/20_memory.md R68; log 14). Safe. -/
  | hostAddressNotMemory
  deriving DecidableEq, Repr

/-- A lane whose registers hold 0: the value the model names for a lane at reset (log 4). -/
def Lane.zero : Lane := { va := 0, vb := 0, vw := 0, vy := 0 }

/-- The argument registers after reset (R40). -/
def CmdRegs.reset : CmdRegs := { n := 0, alpha := 0, aBase := 0, bBase := 0, yBase := 0 }

/-- The working registers of `State.reset`: the spec leaves them unspecified (R40), the model names 0 (log 4). -/
def WorkRegs.zero : WorkRegs := { rem := 0, pa := 0, pb := 0, py := 0, alphaL := 0, vlim := 0, vl := 0 }

/-- The model's own fields with nothing to come. -/
def Env.empty : Env :=
  { schedule := [], draws := [], freeCount := 0, hostRead := none, launch := ⟨0, 0, 0, 0⟩ }

/-- The machine right after reset (R40, spec/70_reset_and_hazards.md R230), with the spec's default parameters and
memory with nothing listed. -/
def State.reset : State :=
  { cfg := Config.default
    cmd := CmdRegs.reset
    done := false
    upc := 0
    work := WorkRegs.zero
    lanes := List.replicate Config.default.vlmax Lane.zero
    mem := []
    env := Env.empty }

end Sys2Proof.Machine
end

