-- ==== Sys2Proof/Machine/Operands.lean ====
section
/-! DEFINITION. Operand forms: how a host operand is cut to its register (spec/30_encoding.md R96), and the one
addressing mode of loads and stores (spec/41_lane_uops.md R142, R147). -/

namespace Sys2Proof.Machine

open Sys2Proof

/-- A count register keeps bits CW-1:0; the bits above read 0 (R25, R96). -/
def cutCount (c : Config) (v : Nat) : Word := BitVec.ofNat 32 (v % 2 ^ c.cw)

/-- An address register keeps bits AW-1:0: address arithmetic is modulo 2^AW (spec/20_memory.md R60). -/
def cutAddr (c : Config) (v : Nat) : Word := BitVec.ofNat 32 (v % 2 ^ c.aw)

/-- A base register keeps bits AW-1:1 of the operand and has bit 0 hardwired to 0 (R27, R96). -/
def cutBase (c : Config) (data : Word) : Word := cutAddr c (data.toNat / 2 * 2)

/-- `ALPHA` keeps bits 15:0 of the operand (R26, R96). -/
def cutAlpha (data : Word) : Q15 := data.extractLsb' 0 16

/-- The byte address of element `i` of a group: `(p + 2*i) mod 2^AW` (spec/41_lane_uops.md R142, R143, R147). -/
def elemAddr (c : Config) (p : Word) (i : Nat) : Nat := (p.toNat + 2 * i) % 2 ^ c.aw

/-- The address of the second byte of a 16-bit access (spec/20_memory.md R61). An even address makes no wrap here;
the model takes the same modulus for the odd addresses that no run makes (log 22). -/
def secondByte (c : Config) (a : Nat) : Nat := (a + 1) % 2 ^ c.aw

end Sys2Proof.Machine
end

