-- ==== Sys2Proof/Machine/Flags.lean ====
section
/-! DEFINITION. The only flags of QAXPY, `STATUS.BUSY` and `STATUS.DONE`, and the words the host reads
(spec/10_state.md R24, R30, R34). -/

namespace Sys2Proof.Machine

open Sys2Proof

/-- `STATUS.BUSY`: not a stored bit but the condition `upc != 0x0` (R24). -/
def State.busy (s : State) : Bool := s.upc != 0

/-- The word `STATUS` reads as: `{30'b0, DONE, BUSY}` (R24, spec/42_engine.md R179). -/
def State.statusWord (s : State) : Word :=
  (0 : BitVec 30) ++ BitVec.ofBool s.done ++ BitVec.ofBool s.busy

/-- The word `CAP` reads as: `{15'b0, HAS_VECTOR, VLMAX[15:0]}` (R30). -/
def capWord (c : Config) : Word :=
  (0 : BitVec 15) ++ BitVec.ofBool c.hasVector ++ BitVec.ofNat 16 c.vlmax

end Sys2Proof.Machine
end

