-- ==== Sys2Proof/Machine/Arith.lean ====
section
/-! DEFINITION. The arithmetic of one element: units U1 and U2, the lane function and the reference kernel
(spec/40_arith_units.md). All of it is on raw signed integers: no shift, no rounding (R115, R126). -/

namespace Sys2Proof.Machine

open Sys2Proof

/-- U1, QMUL: the exact signed product of two Q15 patterns, in 32 bits (R110). -/
def qmul (x y : Q15) : W32 := BitVec.ofInt 32 (x.toInt * y.toInt)

/-- Whether an integer is in the range of a W32 (R21). -/
def fitsW32 (v : Int) : Bool := decide (-2147483648 ≤ v) && decide (v ≤ 2147483647)

/-- U2, WADD: the sum of a sign-extended Q15 and a W32 (R112). Where the sum does not fit 32 bits the spec tells a
model not to rely on the wrap (R112, X7): there the result is a free value (log 8); no run reaches it (R113). -/
def wadd (a : Q15) (p : W32) : W32 :=
  if fitsW32 (a.toInt + p.toInt) then BitVec.ofInt 32 (a.toInt + p.toInt) else Config.waddOverflow a p

/-- U2, SATN: the saturating narrower, 32 to 16 bits at shift 0 (R114). -/
def satn (s : W32) : Q15 :=
  if s.toInt > 32767 then 0x7FFF
  else if s.toInt < -32768 then 0x8000
  else s.extractLsb' 0 16

/-- MAC: the function of one lane (R116). -/
def mac (a alpha b : Q15) : Q15 := satn (wadd a (qmul alpha b))

/-- QMULS: the Q15 saturating multiplier (R117). -/
def qmuls (x y : Q15) : Q15 := satn (qmul x y)

/-- AXPY_REF: the scalar kernel as a function, the contract of a run (R118). -/
def axpyRef (n : Nat) (alpha : Q15) (a b : Nat → Q15) : List Q15 :=
  (List.range n).map fun i => mac (a i) alpha (b i)

end Sys2Proof.Machine
end

