-- ==== Sys2Proof/Machine/Ops.lean ====
section
/-! DEFINITION. The named operations the meanings share: updates of State, memory, the memory map, the command
registers, the lanes, the free values, and starting a run. There is no operation for taking an exception or returning
from one: QAXPY has neither (spec/60_exceptions.md R210, R215). -/

namespace Sys2Proof.Machine

open Sys2Proof

/-! ## Updates of State -/

def State.withCmd (s : State) (c : CmdRegs) : State := { s with cmd := c }
def State.withDone (s : State) (b : Bool) : State := { s with done := b }
def State.withUpc (s : State) (u : UopCode) : State := { s with upc := u }
def State.withWork (s : State) (w : WorkRegs) : State := { s with work := w }
def State.withLanes (s : State) (l : List Lane) : State := { s with lanes := l }
def State.withMem (s : State) (m : Memory) : State := { s with mem := m }
def State.withEnv (s : State) (e : Env) : State := { s with env := e }

/-- The value a read returns to the host (spec/30_encoding.md R93; log 16). -/
def State.returnToHost (s : State) (v : Word) : State := s.withEnv { s.env with hostRead := some v }

/-! ## Memory -/

/-- What an address that is not listed reads as. DESIGN CHOICE (log 3): the spec gives memory no contents. -/
def Memory.fill : Byte := 0

/-- The byte at an address. -/
def Memory.read : Memory → Nat → Byte
  | [], _ => Memory.fill
  | (k, b) :: m, a => if k = a then b else Memory.read m a

/-- Store a byte, keeping the canonical form. -/
def Memory.write : Memory → Nat → Byte → Memory
  | [], a, v => if v = Memory.fill then [] else [(a, v)]
  | (k, b) :: m, a, v =>
    if a < k then (if v = Memory.fill then (k, b) :: m else (a, v) :: (k, b) :: m)
    else if a = k then (if v = Memory.fill then m else (a, v) :: m)
    else (k, b) :: Memory.write m a v

/-- The canonical form: addresses strictly rising, no entry equal to what an unlisted address reads as. -/
abbrev Memory.wf (m : Memory) : Prop :=
  m.Pairwise (fun p q => p.1 < q.1) ∧ ∀ p ∈ m, p.2 ≠ Memory.fill

/-- `MemRead(a, 2)`: the lower address holds bits 7:0 (spec/20_memory.md R61). -/
def Memory.read16 (c : Config) (m : Memory) (a : Nat) : Q15 :=
  Memory.read m (secondByte c a) ++ Memory.read m a

/-- `MemWrite(a, 2, v)`: bits 7:0 at `a`, bits 15:8 at the next address (spec/20_memory.md R61). -/
def Memory.write16 (c : Config) (m : Memory) (a : Nat) (v : Q15) : Memory :=
  Memory.write (Memory.write m a (v.extractLsb' 0 8)) (secondByte c a) (v.extractLsb' 8 8)

/-- Element `i` of the buffer at `base` (spec/20_memory.md R60). -/
def Memory.elem (c : Config) (m : Memory) (base : Word) (i : Nat) : Q15 :=
  Memory.read16 c m (elemAddr c base i)

/-- Store 16-bit values at elements `i`, `i + 1`, … of the buffer at `base`, in ascending order
(spec/41_lane_uops.md R147). -/
def Memory.storeElems (c : Config) (base : Word) : Nat → List Q15 → Memory → Memory
  | _, [], m => m
  | i, v :: vs, m => Memory.storeElems c base (i + 1) vs (Memory.write16 c m (elemAddr c base i) v)

/-! ## The memory map (spec/20_memory.md R65, R67, R68; log 2) -/

/-- Whether an address lies in a region. -/
def regionHolds (r : Region) (a : Nat) : Bool := decide (r.base ≤ a) && decide (a < r.base + r.size)

/-- Whether the engine may read memory of this kind. -/
def engineReads : RegionKind → Bool
  | .plain => true
  | .engineReadOnly => true
  | .device => false

/-- Whether the engine may write memory of this kind. -/
def engineWrites : RegionKind → Bool
  | .plain => true
  | .engineReadOnly => false
  | .device => false

/-- Whether the host may read and write memory of this kind. -/
def hostReaches : RegionKind → Bool
  | .plain => true
  | .engineReadOnly => true
  | .device => false

/-- Whether an address of the address space is in a region whose kind `ok` accepts. -/
def admits (c : Config) (ok : RegionKind → Bool) (a : Nat) : Bool :=
  decide (a < 2 ^ c.aw) && c.regions.any fun r => ok r.kind && regionHolds r a

/-- Whether every address of `[lo, hi)` is in a region whose kind `ok` accepts, for regions in rising order. -/
def coveredBy (ok : RegionKind → Bool) : List Region → Nat → Nat → Bool
  | [], lo, hi => decide (hi ≤ lo)
  | r :: rs, lo, hi =>
    if hi ≤ lo then true
    else if ok r.kind && regionHolds r lo then coveredBy ok rs (r.base + r.size) hi
    else coveredBy ok rs lo hi

/-- Whether the first `k` elements at `p` are all memory that `ok` accepts, both bytes of each. -/
def elemsAdmitted (c : Config) (ok : RegionKind → Bool) (p : Word) (k : Nat) : Bool :=
  (List.range k).all fun i =>
    admits c ok (elemAddr c p i) && admits c ok (secondByte c (elemAddr c p i))

/-- A configuration the spec allows: the ranges of R6, and a memory map in rising order inside the address space. -/
def configWf (c : Config) : Bool :=
  decide (1 ≤ c.vlmax) && decide (c.vlmax ≤ 65535) && decide (2 ≤ c.aw) && decide (c.aw ≤ 32)
    && decide (1 ≤ c.cw) && decide (c.cw ≤ 32)
    && decide (c.regions.Pairwise fun r q => r.base + r.size ≤ q.base)
    && c.regions.all fun r => decide (r.base + r.size ≤ 2 ^ c.aw)

/-! ## Starting a run (spec/42_engine.md R171, R180) -/

/-- The first address past a buffer of `n` elements at `base` (spec/20_memory.md R64). -/
def bufferEnd (base n : Word) : Nat := base.toNat + 2 * n.toNat

/-- Whether an address is a byte of the buffer of `n` elements at `base` (spec/20_memory.md R64). -/
def inBuffer (base n : Word) (a : Nat) : Bool := decide (base.toNat ≤ a) && decide (a < bufferEnd base n)

/-- Whether a buffer has a byte in a device (spec/20_memory.md R67). -/
def touchesDevice (c : Config) (base n : Word) : Bool :=
  c.regions.any fun r =>
    r.kind == .device && decide (max base.toNat r.base < min (bufferEnd base n) (r.base + r.size))

/-- Whether a buffer is memory the platform admits and does not run past the top (spec/20_memory.md R65). -/
def bufferAdmitted (c : Config) (ok : RegionKind → Bool) (base n : Word) : Bool :=
  decide (bufferEnd base n ≤ 2 ^ c.aw) && coveredBy ok c.regions base.toNat (bufferEnd base n)

/-- Whether Y overlaps another buffer other than in place (spec/20_memory.md R66). -/
def partialOverlap (y x n : Word) : Bool :=
  y != x && decide (y.toNat < bufferEnd x n) && decide (x.toNat < bufferEnd y n)

/-- Why a launch gets no meaning, or none where the preconditions of spec/20_memory.md R65 to R67 hold. With `n = 0`
they are empty (R65). The hardware checks nothing: the model refuses, as spec/92_eei_decisions.md D23 asks (log 12). -/
def launchRefusal (c : Config) (l : Launch) : Option Refusal :=
  if l.n = 0 then none
  else if touchesDevice c l.aBase l.n || touchesDevice c l.bBase l.n || touchesDevice c l.yBase l.n then
    some .bufferOnDevice
  else if !(bufferAdmitted c engineReads l.aBase l.n && bufferAdmitted c engineReads l.bBase l.n
      && bufferAdmitted c engineWrites l.yBase l.n) then
    some .bufferNotAdmitted
  else if partialOverlap l.yBase l.aBase l.n || partialOverlap l.yBase l.bBase l.n then some .bufferAliased
  else none

/-- The arguments a START issued now would latch. -/
def State.launchArgs (s : State) : Launch :=
  { n := s.cmd.n, aBase := s.cmd.aBase, bBase := s.cmd.bBase, yBase := s.cmd.yBase }

/-- The largest group width of a run: `VLMAX` for the vectorized kernel on vector hardware, otherwise 1 (R171), cut to
what CW bits hold (spec/10_state.md R32). -/
def vlimOf (c : Config) (vec : Bool) : Word :=
  BitVec.ofNat 32 (min (if vec && c.hasVector then c.vlmax else 1) (2 ^ c.cw - 1))

/-- The state right after an accepted START (R171). -/
def State.launched (s : State) (vec : Bool) : State :=
  { s with
    work := { s.work with
      rem := s.cmd.n
      pa := s.cmd.aBase
      pb := s.cmd.bBase
      py := s.cmd.yBase
      alphaL := s.cmd.alpha
      vlim := vlimOf s.cfg vec }
    done := false
    upc := 0x1
    env := { s.env with launch := s.launchArgs } }

/-- START: begins a run when the engine is idle (R171), dropped without notice when it is busy (R180). -/
def startRun (vec : Bool) (s : State) : Host.Outcome State Fault Refusal :=
  if s.busy then .next s
  else
    match launchRefusal s.cfg s.launchArgs with
    | some r => .refused r
    | none => .next (s.launched vec)

/-! ## The command registers (spec/10_state.md R22 to R31) -/

/-- Read a command register (spec/42_engine.md R179). -/
def State.readCReg (s : State) : CReg → Word
  | .ctrl => 0
  | .status => s.statusWord
  | .n => s.cmd.n
  | .alpha => s.cmd.alpha.setWidth 32
  | .aBase => s.cmd.aBase
  | .bBase => s.cmd.bBase
  | .yBase => s.cmd.yBase
  | .cap => capWord s.cfg

/-- Write a register that stores what it is given; `CTRL`, `STATUS` and `CAP` store nothing (spec/42_engine.md R178,
spec/10_state.md R31). -/
def State.storeCReg (s : State) (data : Word) : CReg → State
  | .ctrl => s
  | .status => s
  | .n => s.withCmd { s.cmd with n := cutCount s.cfg data.toNat }
  | .alpha => s.withCmd { s.cmd with alpha := cutAlpha data }
  | .aBase => s.withCmd { s.cmd with aBase := cutBase s.cfg data }
  | .bBase => s.withCmd { s.cmd with bBase := cutBase s.cfg data }
  | .yBase => s.withCmd { s.cmd with yBase := cutBase s.cfg data }
  | .cap => s

/-! ## Lanes (spec/41_lane_uops.md R148, R149) -/

/-- Apply a micro-operation to the active lanes `0 ≤ i < vl`; the tail lanes keep what they hold (R36, R149). A lane
reads nothing of another lane (R148). -/
def mapActive (vl : Nat) (f : Nat → Lane → Lane) (lanes : List Lane) : List Lane :=
  lanes.mapIdx fun i l => if i < vl then f i l else l

/-- How many lanes are active: `vl`, or all there are where `vl` exceeds them, which no run makes (log 10). -/
def State.activeLanes (s : State) : Nat := min s.work.vl.toNat s.lanes.length

/-- Apply a lane function to the active lanes of the state. -/
def State.updateLanes (s : State) (f : Nat → Lane → Lane) : State :=
  s.withLanes (mapActive s.work.vl.toNat f s.lanes)

/-! ## The grant of SETVL (spec/41_lane_uops.md R141; log 6) -/

/-- The next choice of the hardware, and the state with it used up: the head of the state's list of draws, or a free
value where the list is empty. -/
def State.takeDraw (s : State) : Nat × State :=
  match s.env.draws with
  | d :: ds => (d, s.withEnv { s.env with draws := ds })
  | [] => (Config.freeDraw s.env.freeCount, s.withEnv { s.env with freeCount := s.env.freeCount + 1 })

/-- The member of `1 .. m` the choice `d` picks; every member is some `d`'s. The set is never empty in a run; for the
empty set the spec states no value and the choice itself is the value (log 7). -/
def grantOf (d m : Nat) : Nat :=
  match m with
  | 0 => d
  | 1 => 1
  | m => 1 + d % m

/-! ## The host's own memory accesses (spec/42_engine.md R187, spec/20_memory.md R76; log 14) -/

/-- Whether an address is a byte of A, B or Y of the run in progress, as latched at its START. -/
def State.inRunBuffers (s : State) (a : Nat) : Bool :=
  s.busy && (inBuffer s.env.launch.aBase s.env.launch.n a || inBuffer s.env.launch.bBase s.env.launch.n a
    || inBuffer s.env.launch.yBase s.env.launch.n a)

/-- Whether an address is a byte of Y of the run in progress. -/
def State.inRunOutput (s : State) (a : Nat) : Bool :=
  s.busy && inBuffer s.env.launch.yBase s.env.launch.n a

/-- The host writes a byte of memory. A write to a buffer of the run in progress is a race the spec gives no outcome:
refused (R76, X3). -/
def hostStore (addr : Word) (value : Byte) (s : State) : Host.Outcome State Fault Refusal :=
  if !admits s.cfg hostReaches addr.toNat then .refused .hostAddressNotMemory
  else if s.inRunBuffers addr.toNat then .refused .hostWritesBuffer
  else .next (s.withMem (Memory.write s.mem addr.toNat value))

/-- The host reads a byte of memory. A byte of Y read during the run has no defined value: a free value (R76). -/
def hostLoad (addr : Word) (s : State) : Host.Outcome State Fault Refusal :=
  if !admits s.cfg hostReaches addr.toNat then .refused .hostAddressNotMemory
  else if s.inRunOutput addr.toNat then
    .next ((s.withEnv { s.env with freeCount := s.env.freeCount + 1 }).returnToHost
      ((Config.racyByte s.env.freeCount).setWidth 32))
  else .next (s.returnToHost ((Memory.read s.mem addr.toNat).setWidth 32))

/-! ## The reset input (spec/70_reset_and_hazards.md R230, R231; spec/10_state.md R40) -/

/-- The working registers after the reset input: unspecified, each a free value of its width (log 5). -/
def freeWork (c : Config) (count : Nat) : WorkRegs :=
  { rem := cutCount c (Config.unspecified count 0).toNat
    pa := cutAddr c (Config.unspecified count 1).toNat
    pb := cutAddr c (Config.unspecified count 2).toNat
    py := cutAddr c (Config.unspecified count 3).toNat
    alphaL := (Config.unspecified count 4).setWidth 16
    vlim := cutCount c (Config.unspecified count 5).toNat
    vl := cutCount c (Config.unspecified count 6).toNat }

/-- Lane `i` after the reset input: unspecified, each element a free value (log 5). -/
def freeLane (count i : Nat) : Lane :=
  { va := (Config.unspecified count (7 + 4 * i)).setWidth 16
    vb := (Config.unspecified count (8 + 4 * i)).setWidth 16
    vw := Config.unspecified count (9 + 4 * i)
    vy := (Config.unspecified count (10 + 4 * i)).setWidth 16 }

/-- The reset input: the engine goes idle with `DONE = 0` and the argument registers 0; the run in progress is
abandoned at the micro-operation boundary; memory keeps its contents (R230, R231). -/
def applyReset (s : State) : State :=
  { s with
    cmd := CmdRegs.reset
    done := false
    upc := 0
    work := freeWork s.cfg s.env.freeCount
    lanes := (List.range s.cfg.vlmax).map (freeLane s.env.freeCount)
    env := { s.env with freeCount := s.env.freeCount + 1 } }

end Sys2Proof.Machine
end

