-- ==== Sys2Proof/Machine/HostCommands.lean ====
section
/-! DEFINITION. The host commands START.S, START.V, WR and RD (spec/42_engine.md section 2). -/

namespace Sys2Proof.Machine

open Sys2Proof

/-- START.S: starts the scalar kernel; the ignored data bits change nothing (R171, R175). -/
def execStartS (_ignored : BitVec 30) (s : State) : Host.Outcome State Fault Refusal := startRun false s

/-- START.V: starts the vectorized kernel, or the scalar one without vector hardware (R171, R176, R177). -/
def execStartV (_ignored : BitVec 30) (s : State) : Host.Outcome State Fault Refusal := startRun true s

/-- WR: writes a command register; a write of CTRL with bit 0 set is a START whose bit 1 is VEC (R178). -/
def execWr (reg : CReg) (data : Word) (s : State) : Host.Outcome State Fault Refusal :=
  if reg = .ctrl ∧ data.getLsbD 0 then startRun (data.getLsbD 1) s else .next (s.storeCReg data reg)

/-- RD: returns a command register to the host and changes nothing else (R179). -/
def execRd (reg : CReg) (_ignored : Word) (s : State) : Host.Outcome State Fault Refusal :=
  .next (s.returnToHost (s.readCReg reg))

end Sys2Proof.Machine
end

