-- ==== Sys2Proof/Machine/LaneUops.lean ====
section
/-! DEFINITION. The micro-operations of the lane datapath U3 (spec/41_lane_uops.md). -/

namespace Sys2Proof.Machine

open Sys2Proof

/-- SETVL: `vl <- draw { v : 1 <= v <= min(rem, vlim) }` (R141). -/
def execSetvl (s : State) : Host.Outcome State Fault Refusal :=
  let d := s.takeDraw
  .next ((d.2.withWork
    { s.work with vl := cutCount s.cfg (grantOf d.1 (min s.work.rem.toNat s.work.vlim.toNat)) }).withUpc 0x3)

/-- VLDA: `VA[i] <- MemRead((pa + 2*i) mod 2^AW, 2)` for the active lanes (R142). -/
def execVlda (s : State) : Host.Outcome State Fault Refusal :=
  if elemsAdmitted s.cfg engineReads s.work.pa s.activeLanes then
    .next ((s.updateLanes fun i l => { l with va := Memory.elem s.cfg s.mem s.work.pa i }).withUpc 0x4)
  else .refused .accessNotAdmitted

/-- VLDB: `VB[i] <- MemRead((pb + 2*i) mod 2^AW, 2)` for the active lanes (R143). -/
def execVldb (s : State) : Host.Outcome State Fault Refusal :=
  if elemsAdmitted s.cfg engineReads s.work.pb s.activeLanes then
    .next ((s.updateLanes fun i l => { l with vb := Memory.elem s.cfg s.mem s.work.pb i }).withUpc 0x5)
  else .refused .accessNotAdmitted

/-- VWMUL: `VW[i] <- QMUL(alpha_l, VB[i])` for the active lanes (R144). -/
def execVwmul (s : State) : Host.Outcome State Fault Refusal :=
  .next ((s.updateLanes fun _ l => { l with vw := qmul s.work.alphaL l.vb }).withUpc 0x6)

/-- VWADD: `VW[i] <- WADD(VA[i], VW[i])` for the active lanes (R145). -/
def execVwadd (s : State) : Host.Outcome State Fault Refusal :=
  .next ((s.updateLanes fun _ l => { l with vw := wadd l.va l.vw }).withUpc 0x7)

/-- VNSAT: `VY[i] <- SATN(VW[i])` for the active lanes (R146). -/
def execVnsat (s : State) : Host.Outcome State Fault Refusal :=
  .next ((s.updateLanes fun _ l => { l with vy := satn l.vw }).withUpc 0x8)

/-- VSTY: `MemWrite((py + 2*i) mod 2^AW, 2, VY[i])` for the active lanes, ascending (R147). -/
def execVsty (s : State) : Host.Outcome State Fault Refusal :=
  if elemsAdmitted s.cfg engineWrites s.work.py s.activeLanes then
    .next ((s.withMem (Memory.storeElems s.cfg s.work.py 0
      ((s.lanes.take s.work.vl.toNat).map Lane.vy) s.mem)).withUpc 0x9)
  else .refused .accessNotAdmitted

end Sys2Proof.Machine
end

