-- ==== Sys2Proof/Machine/Sequencer.lean ====
section
/-! DEFINITION. The micro-operations of the sequencer U4 (spec/42_engine.md). -/

namespace Sys2Proof.Machine

open Sys2Proof

/-- CHKN: ends the run when no element is left, else goes on to SETVL (R172). -/
def execChkn (s : State) : Host.Outcome State Fault Refusal :=
  if s.work.rem = 0 then .next ((s.withDone true).withUpc 0x0) else .next (s.withUpc 0x2)

/-- `rem - vl`; where `vl > rem`, which no run makes, the spec states no value: a free one (log 9). -/
def remAfter (rem vl : Nat) : Nat := if vl ≤ rem then rem - vl else Config.remUnderflow rem vl

/-- ADV: the pointers move by `2*vl` bytes, the count falls by `vl` (R173). -/
def execAdv (s : State) : Host.Outcome State Fault Refusal :=
  .next ((s.withWork
    { s.work with
      pa := cutAddr s.cfg (s.work.pa.toNat + 2 * s.work.vl.toNat)
      pb := cutAddr s.cfg (s.work.pb.toNat + 2 * s.work.vl.toNat)
      py := cutAddr s.cfg (s.work.py.toNat + 2 * s.work.vl.toNat)
      rem := cutCount s.cfg (remAfter s.work.rem.toNat s.work.vl.toNat) }).withUpc 0x1)

end Sys2Proof.Machine
end

