-- ==== Sys2Proof/Machine/Dispatch.lean ====
section
/-! DEFINITION. One arm per constructor of Instr. -/

namespace Sys2Proof.Machine

open Sys2Proof

def exec (i : Instr) (s : State) : Host.Outcome State Fault Refusal :=
  match i with
  | .chkn => Sys2Proof.Machine.execChkn s
  | .setvl => Sys2Proof.Machine.execSetvl s
  | .vlda => Sys2Proof.Machine.execVlda s
  | .vldb => Sys2Proof.Machine.execVldb s
  | .vwmul => Sys2Proof.Machine.execVwmul s
  | .vwadd => Sys2Proof.Machine.execVwadd s
  | .vnsat => Sys2Proof.Machine.execVnsat s
  | .vsty => Sys2Proof.Machine.execVsty s
  | .adv => Sys2Proof.Machine.execAdv s
  | .startS ignored => Sys2Proof.Machine.execStartS ignored s
  | .startV ignored => Sys2Proof.Machine.execStartV ignored s
  | .wr reg data => Sys2Proof.Machine.execWr reg data s
  | .rd reg ignored => Sys2Proof.Machine.execRd reg ignored s

end Sys2Proof.Machine
end

