-- ==== Sys2Proof/Machine/Fetch.lean ====
section
/-! DEFINITION. What happens next: the schedule's next move, or the engine's own step where nothing is scheduled
(spec/42_engine.md R170, R187; log 11). -/

namespace Sys2Proof.Machine

open Sys2Proof

/-- What a step is to do: run one instruction in a state, or end with an outcome that needs no instruction. -/
inductive Fetched where
  | run (i : Instr) (s : State)
  | outcome (o : Host.Outcome State Fault Refusal)
  deriving Repr

/-- The engine's step: the micro-operation whose code is in `upc`; an idle engine has no step, so nothing changes
(R170); a reserved code is refused (spec/30_encoding.md R97). -/
def fetchEngine (s : State) : Fetched :=
  match decode (.m4 s.upc) with
  | .ok i => .run i s
  | .error .idle => .outcome (.next s)
  | .error (.reservedCode code) => .outcome (.refused (.reservedUop code))

/-- The host's access of the command register file: the instruction its word decodes to. -/
def fetchHost (word : HostWord) (s : State) : Fetched := .run (decodeHost word) s

/-- The state with its schedule replaced. -/
def State.withSchedule (s : State) (moves : List Move) : State := s.withEnv { s.env with schedule := moves }

/-- What the next step does. -/
def fetch (s : State) : Fetched :=
  match s.env.schedule with
  | [] => fetchEngine s
  | .engine :: rest => fetchEngine (s.withSchedule rest)
  | .access word :: rest => fetchHost word (s.withSchedule rest)
  | .store addr value :: rest => .outcome (hostStore addr value (s.withSchedule rest))
  | .load addr :: rest => .outcome (hostLoad addr (s.withSchedule rest))
  | .reset :: rest => .outcome (.next (applyReset (s.withSchedule rest)))

/-- The state in which the next move is the one that runs this code word: a micro-operation code is put into `upc` and
the engine moves next; a host word is the host's next access. -/
def State.withCodeWord (s : State) : CodeWord → State
  | .m4 code => (s.withUpc code).withSchedule (.engine :: s.env.schedule)
  | .h36 word => s.withSchedule (.access word :: s.env.schedule)

end Sys2Proof.Machine
end

