-- ==== Sys2Proof/Machine/Step.lean ====
section
/-! DEFINITION. One step of the machine. -/

namespace Sys2Proof.Machine

open Sys2Proof

/-- Do what was fetched: run its instruction, or end with its outcome. -/
def runFetched : Fetched → Host.Outcome State Fault Refusal
  | .run i s => exec i s
  | .outcome o => o

/-- One step: fetch what happens next and do it. -/
def step (s : State) : Host.Outcome State Fault Refusal := runFetched (fetch s)

/-- `s` with the instruction of these bits where step fetches its next one; bits that are no code word leave `s` as
it is (log 19). -/
def State.withFetchWord (s : State) (nbits w : Nat) : State :=
  match CodeWord.ofTable nbits w with
  | some c => s.withCodeWord c
  | none => s

end Sys2Proof.Machine
end

