-- ==== Sys2Proof/Safety.lean ====
section
/-! DEFINITION. What a safe state is: the facts every step keeps, and the facts of a run in progress. -/

namespace Sys2Proof.Machine

open Sys2Proof

/-- A base register's value: an even address of AW bits (spec/10_state.md R27, spec/20_memory.md R62). -/
def BaseOk (c : Config) (b : Word) : Prop := b.toNat < 2 ^ c.aw ∧ b.toNat % 2 = 0

/-- What holds of every state a run from reset reaches, of any configuration the spec allows: the reserved bits of the
registers are 0 (R25 to R29, R31, R32), every lane register has VLMAX elements (R35), memory is in its canonical form
and inside the address space (R37), `upc` holds a code (R33), and BUSY and DONE are never both 1 (R24). -/
structure State.Inv (s : State) : Prop where
  cfg_wf : configWf s.cfg = true
  n_bits : s.cmd.n.toNat < 2 ^ s.cfg.cw
  aBase_ok : BaseOk s.cfg s.cmd.aBase
  bBase_ok : BaseOk s.cfg s.cmd.bBase
  yBase_ok : BaseOk s.cfg s.cmd.yBase
  rem_bits : s.work.rem.toNat < 2 ^ s.cfg.cw
  vlim_bits : s.work.vlim.toNat < 2 ^ s.cfg.cw
  vl_bits : s.work.vl.toNat < 2 ^ s.cfg.cw
  pa_bits : s.work.pa.toNat < 2 ^ s.cfg.aw
  pb_bits : s.work.pb.toNat < 2 ^ s.cfg.aw
  py_bits : s.work.py.toNat < 2 ^ s.cfg.aw
  lanes_len : s.lanes.length = s.cfg.vlmax
  mem_wf : Memory.wf s.mem
  mem_space : ∀ p ∈ s.mem, p.1 < 2 ^ s.cfg.aw
  upc_code : s.upc.toNat ≤ 9
  flags : s.busy = true → s.done = false

/-- The pointer of a run after its first `k` elements (spec/42_engine.md R173): base + 2k, modulo 2^AW. -/
def pointerAt (c : Config) (base : Word) (k : Nat) : Nat := (base.toNat + 2 * k) % 2 ^ c.aw

/-- The facts of a run in progress, in terms of the arguments its START latched: the launch kept the preconditions of
spec/20_memory.md R65 to R67; the pointers stand at the first element not yet advanced past (spec/42_engine.md R173);
past CHKN an element is left, and past SETVL the group is within `1 .. min(rem, vlim)` (spec/41_lane_uops.md R141). -/
structure State.RunInv (s : State) : Prop where
  launch_ok : launchRefusal s.cfg s.env.launch = none
  aBase_ok : BaseOk s.cfg s.env.launch.aBase
  bBase_ok : BaseOk s.cfg s.env.launch.bBase
  yBase_ok : BaseOk s.cfg s.env.launch.yBase
  rem_le : s.work.rem.toNat ≤ s.env.launch.n.toNat
  vlim_pos : 1 ≤ s.work.vlim.toNat
  vlim_le : s.work.vlim.toNat ≤ s.cfg.vlmax
  pa_at : s.work.pa.toNat = pointerAt s.cfg s.env.launch.aBase (s.env.launch.n.toNat - s.work.rem.toNat)
  pb_at : s.work.pb.toNat = pointerAt s.cfg s.env.launch.bBase (s.env.launch.n.toNat - s.work.rem.toNat)
  py_at : s.work.py.toNat = pointerAt s.cfg s.env.launch.yBase (s.env.launch.n.toNat - s.work.rem.toNat)
  left : 2 ≤ s.upc.toNat → 1 ≤ s.work.rem.toNat
  group : 3 ≤ s.upc.toNat →
    1 ≤ s.work.vl.toNat ∧ s.work.vl.toNat ≤ min s.work.rem.toNat s.work.vlim.toNat

/-- A safe state: the facts of every state, and those of a run where one is in progress. -/
structure State.Safe (s : State) : Prop where
  inv : s.Inv
  run : s.busy = true → s.RunInv

/-- Whether the first `k` elements at `p` are all memory the platform admits for the access, both bytes of each
(spec/20_memory.md R65). -/
def GroupAdmitted (c : Config) (ok : RegionKind → Bool) (p : Word) (k : Nat) : Prop :=
  ∀ i, i < k → admits c ok (elemAddr c p i) = true ∧ admits c ok (secondByte c (elemAddr c p i)) = true

/-- Whether the engine moves next: it is scheduled, or nothing is (spec/42_engine.md R170, R187). -/
def State.engineMovesNext (s : State) : Prop := s.env.schedule = [] ∨ ∃ rest, s.env.schedule = .engine :: rest

/-- The schedule after its first move. -/
def State.scheduleAfter (s : State) : List Move := s.env.schedule.tail

/-- The moves that leave memory and the engine alone: the engine's own step and the host's register accesses. -/
def Move.isQuiet : Move → Bool
  | .engine => true
  | .access _ => true
  | .store _ _ => false
  | .load _ => false
  | .reset => false

/-- Whether an instruction is one of the two forms of the command START (spec/30_encoding.md R95). -/
def isStart : Instr → Bool
  | .startS _ => true
  | .startV _ => true
  | .chkn => false
  | .setvl => false
  | .vlda => false
  | .vldb => false
  | .vwmul => false
  | .vwadd => false
  | .vnsat => false
  | .vsty => false
  | .adv => false
  | .wr _ _ => false
  | .rd _ _ => false

/-- Whether an instruction is a micro-operation of the engine (spec/30_encoding.md R92). -/
def isUop : Instr → Bool
  | .chkn => true
  | .setvl => true
  | .vlda => true
  | .vldb => true
  | .vwmul => true
  | .vwadd => true
  | .vnsat => true
  | .vsty => true
  | .adv => true
  | .startS _ => false
  | .startV _ => false
  | .wr _ _ => false
  | .rd _ _ => false

/-- Whether an instruction is a micro-operation on the lane registers, SETVL apart (spec/41_lane_uops.md R142 to
R147). -/
def isLaneUop : Instr → Bool
  | .vlda => true
  | .vldb => true
  | .vwmul => true
  | .vwadd => true
  | .vnsat => true
  | .vsty => true
  | .chkn => false
  | .setvl => false
  | .adv => false
  | .startS _ => false
  | .startV _ => false
  | .wr _ _ => false
  | .rd _ _ => false

end Sys2Proof.Machine
end

