-- ==== Sys2Proof/Certificates/Slice0/Obligations.lean ====
section
/-! DEFINITION. The statements for the provers, in the order of OBLIGATIONS.json. Each says which rule of spec/ it
formalises or rests on; where a clause is the model's choice it names the log entry. -/

open Sys2Proof Sys2Proof.Machine

/-! ## The arithmetic of one element (spec/40_arith_units.md) -/

/-- R111: the product is the exact integer product and lies in `[-1073709056, 1073741824]`; both ends are reached. -/
def Obligations.ProductExactAndInRange : Prop :=
  (∀ x y : Q15, (qmul x y).toInt = x.toInt * y.toInt ∧
    -1073709056 ≤ (qmul x y).toInt ∧ (qmul x y).toInt ≤ 1073741824) ∧
  (qmul 0x7FFF 0x8000).toInt = -1073709056 ∧ (qmul 0x8000 0x8000).toInt = 1073741824

/-- R113: the sum of a lane, computed in 32 bits, is the exact integer sum and lies in `[-1073741824, 1073774591]`;
both ends are reached. -/
def Obligations.LaneSumExactAndInRange : Prop :=
  (∀ a x y : Q15, (wadd a (qmul x y)).toInt = a.toInt + x.toInt * y.toInt ∧
    -1073741824 ≤ (wadd a (qmul x y)).toInt ∧ (wadd a (qmul x y)).toInt ≤ 1073774591) ∧
  wadd 0x8000 (qmul 0x7FFF 0x8000) = 0xC0000000 ∧ wadd 0x7FFF (qmul 0x8000 0x8000) = 0x40007FFF

/-- R114: SATN clamps above 32767 and below -32768, and passes every other value exactly, for every 32-bit pattern. -/
def Obligations.NarrowerClampsElsePasses : Prop :=
  ∀ s : W32,
    (s.toInt > 32767 → satn s = 0x7FFF) ∧
    (s.toInt < -32768 → satn s = 0x8000) ∧
    (-32768 ≤ s.toInt → s.toInt ≤ 32767 → satn s = s.extractLsb' 0 16 ∧ (satn s).toInt = s.toInt)

/-- R116: one lane computes the exact sum, clamped. -/
def Obligations.LaneFunctionIsClampedExactSum : Prop :=
  ∀ a alpha b : Q15, mac a alpha b = satn (wadd a (qmul alpha b)) ∧
    (mac a alpha b).toInt = max (-32768) (min 32767 (a.toInt + alpha.toInt * b.toInt))

/-- R121: the output is at a bound exactly when the exact sum reaches it, and otherwise is the sum. -/
def Obligations.OutputAtBoundIffSumReachesIt : Prop :=
  ∀ a alpha b : Q15,
    -32768 ≤ (mac a alpha b).toInt ∧ (mac a alpha b).toInt ≤ 32767 ∧
    ((mac a alpha b).toInt = 32767 ↔ 32767 ≤ a.toInt + alpha.toInt * b.toInt) ∧
    ((mac a alpha b).toInt = -32768 ↔ a.toInt + alpha.toInt * b.toInt ≤ -32768) ∧
    (-32768 < a.toInt + alpha.toInt * b.toInt → a.toInt + alpha.toInt * b.toInt < 32767 →
      (mac a alpha b).toInt = a.toInt + alpha.toInt * b.toInt)

/-- R120: with the raw multiplier 1 a lane adds and clamps, with -1 it subtracts and clamps; and with 0 it passes A
(the first sentence of R119). -/
def Obligations.LaneAtAlphaOneMinusOneZero : Prop :=
  ∀ a b : Q15,
    (mac a 0x0001 b).toInt = max (-32768) (min 32767 (a.toInt + b.toInt)) ∧
    (mac a 0xFFFF b).toInt = max (-32768) (min 32767 (a.toInt - b.toInt)) ∧
    mac a 0x0000 b = a

/-- R117: the saturating multiplier is the lane function with A = 0, clamps the raw product, and has the corner values
the rule lists. -/
def Obligations.SaturatingMultiplierLaws : Prop :=
  (∀ x y : Q15, qmuls x y = satn (qmul x y) ∧ qmuls x y = mac 0 x y ∧
    (qmuls x y).toInt = max (-32768) (min 32767 (x.toInt * y.toInt))) ∧
  (∀ x : Q15, qmuls x 0 = 0 ∧ qmuls x 1 = x ∧ (x ≠ 0x8000 → qmuls x 0xFFFF = -x)) ∧
  qmuls 0x8000 0xFFFF = 0x7FFF ∧ qmuls 0x8000 0x8000 = 0x7FFF ∧ qmuls 0x7FFF 0x8000 = 0x8000 ∧
  (qmuls 181 181).toInt = 32761 ∧ (qmuls 182 181).toInt = 32767 ∧
  (qmuls 100 300).toInt = 30000 ∧ (qmuls 100 400).toInt = 32767

/-! ## Encodings (spec/30_encoding.md) -/

/-- The word of every well-formed instruction decodes to it, with every operand at every value. -/
def Obligations.EveryEncodedInstructionDecodesBack : Prop :=
  ∀ i : Instr, i.wellFormed = true → decode (encode i) = .ok i

/-- Every code word that decodes is the word of the well-formed instruction it decodes to: each word has one meaning,
and no bit of it is lost. -/
def Obligations.EveryDecodedWordEncodesBack : Prop :=
  ∀ (c : CodeWord) (i : Instr), decode c = .ok i → encode i = c ∧ i.wellFormed = true

/-- R95: the host command map by match and mask over the 36-bit word, the rows tested in order; every word decodes. -/
def Obligations.HostMapByMatchAndMask : Prop :=
  ∀ w : HostWord,
    (w &&& 0xF00000003 = 0x800000001 → decodeHost w = .startS (w.extractLsb' 2 30)) ∧
    (w &&& 0xF00000003 = 0x800000003 → decodeHost w = .startV (w.extractLsb' 2 30)) ∧
    (w &&& 0xF00000003 ≠ 0x800000001 → w &&& 0xF00000003 ≠ 0x800000003 → w &&& 0x800000000 = 0x800000000 →
      decodeHost w = .wr (CReg.ofIndex (w.extractLsb' 32 3)) (w.extractLsb' 0 32)) ∧
    (w &&& 0x800000000 = 0x000000000 →
      decodeHost w = .rd (CReg.ofIndex (w.extractLsb' 32 3)) (w.extractLsb' 0 32))

/-- Words written out from the encodings of R92 and of spec/95_test_vectors.md T8 decode to their instructions. -/
def Obligations.WrittenOutWordsDecode : Prop :=
  decodeTableWord 8 0b0001 = some .chkn ∧ decodeTableWord 8 0b0101 = some .vwmul ∧
  decodeTableWord 8 0b1000 = some .vsty ∧ decodeTableWord 8 0b1001 = some .adv ∧
  decodeTableWord 40 0x800000001 = some (.startS 0) ∧ decodeTableWord 40 0x800000003 = some (.startV 0) ∧
  decodeTableWord 40 0xB0000FF9C = some (.wr .alpha 0x0000FF9C) ∧
  decodeTableWord 40 0x100000000 = some (.rd .status 0)

/-- R97, X10: a state whose `upc` holds a reserved code is refused by name where the engine moves next; the codes 0xA to
0xF are the reserved ones, and no host word is rejected. -/
def Obligations.ReservedCodesAreRefused : Prop :=
  (∀ s : State, 0xA ≤ s.upc.toNat → s.engineMovesNext → step s = .refused (.reservedUop s.upc)) ∧
  (∀ code : UopCode, decodeUop code = .error (.reservedCode code) ↔ 0xA ≤ code.toNat) ∧
  (∀ w : HostWord, decode (.h36 w) = .ok (decodeHost w))

/-! ## The sequencer (spec/42_engine.md) -/

/-- R172: CHKN, code 0x1, ends the run exactly when no element is left, and changes nothing else. -/
def Obligations.ChknEndsRunExactlyAtZero : Prop :=
  decode (.m4 0x1) = .ok .chkn ∧ ∀ s : State,
    (s.work.rem = 0 → exec .chkn s = .next { s with done := true, upc := 0x0 }) ∧
    (s.work.rem ≠ 0 → exec .chkn s = .next { s with upc := 0x2 })

/-- The pseudocode of R173: ADV moves the three pointers by `2*vl` modulo 2^AW and takes `vl` from `rem`, and changes
nothing else. What `rem` becomes where `vl > rem` is a free value (log 9). -/
def Obligations.AdvMovesPointersAndCount : Prop :=
  ∀ s : State, s.cfg.aw ≤ 32 → s.cfg.cw ≤ 32 → ∃ t, exec .adv s = .next t ∧
    t.work.pa.toNat = (s.work.pa.toNat + 2 * s.work.vl.toNat) % 2 ^ s.cfg.aw ∧
    t.work.pb.toNat = (s.work.pb.toNat + 2 * s.work.vl.toNat) % 2 ^ s.cfg.aw ∧
    t.work.py.toNat = (s.work.py.toNat + 2 * s.work.vl.toNat) % 2 ^ s.cfg.aw ∧
    (s.work.vl.toNat ≤ s.work.rem.toNat → s.work.rem.toNat < 2 ^ s.cfg.cw →
      t.work.rem.toNat = s.work.rem.toNat - s.work.vl.toNat) ∧
    t = { s with
      work := { s.work with pa := t.work.pa, pb := t.work.pb, py := t.work.py, rem := t.work.rem }
      upc := 0x1 }

/-! ## The lane datapath (spec/41_lane_uops.md) -/

/-- R141: SETVL answers a next state in which only `vl`, `upc` and the model's own draw fields differ; where the set is
not empty, `vl` is in it, whichever value the hardware draws. On the empty set, which no run meets, `vl` is a free
value (log 7). -/
def Obligations.SetvlGrantsWithinRange : Prop :=
  ∀ s : State, ∃ t, exec .setvl s = .next t ∧
    (1 ≤ s.work.rem.toNat → 1 ≤ s.work.vlim.toNat → s.work.vlim.toNat < 2 ^ s.cfg.cw → s.cfg.cw ≤ 32 →
      1 ≤ t.work.vl.toNat ∧ t.work.vl.toNat ≤ min s.work.rem.toNat s.work.vlim.toNat) ∧
    t = { s with
      work := { s.work with vl := t.work.vl }
      upc := 0x3
      env := { s.env with draws := t.env.draws, freeCount := t.env.freeCount } }

/-- R141: every member of the set can be drawn: a model must admit every grant (N15). That a draw is the head of the
state's list of draws is the model's form of it (log 6). -/
def Obligations.EveryGrantCanBeDrawn : Prop :=
  ∀ (s : State) (v : Nat), s.work.vlim.toNat < 2 ^ s.cfg.cw → s.cfg.cw ≤ 32 →
    1 ≤ v → v ≤ min s.work.rem.toNat s.work.vlim.toNat →
    ∃ d, ∀ rest, ∃ t, exec .setvl { s with env := { s.env with draws := d :: rest } } = .next t ∧
      t.work.vl.toNat = v ∧ t.env.draws = rest

/-- R142, R143: VLDA and VLDB load the active lanes from memory, unchanged patterns, low byte at the lower address, and
change no tail lane, no other lane register, and nothing else of the state. -/
def Obligations.LoadsFillTheActiveLanes : Prop :=
  ∀ s : State,
    (GroupAdmitted s.cfg engineReads s.work.pa s.activeLanes → ∃ t, exec .vlda s = .next t ∧
      t = { s with lanes := t.lanes, upc := 0x4 } ∧ t.lanes.length = s.lanes.length ∧
      ∀ (i : Nat) (l : Lane), s.lanes[i]? = some l → t.lanes[i]? = some { l with
        va := if i < s.work.vl.toNat then
            Memory.read s.mem (((s.work.pa.toNat + 2 * i) % 2 ^ s.cfg.aw + 1) % 2 ^ s.cfg.aw) ++
              Memory.read s.mem ((s.work.pa.toNat + 2 * i) % 2 ^ s.cfg.aw)
          else l.va }) ∧
    (GroupAdmitted s.cfg engineReads s.work.pb s.activeLanes → ∃ t, exec .vldb s = .next t ∧
      t = { s with lanes := t.lanes, upc := 0x5 } ∧ t.lanes.length = s.lanes.length ∧
      ∀ (i : Nat) (l : Lane), s.lanes[i]? = some l → t.lanes[i]? = some { l with
        vb := if i < s.work.vl.toNat then
            Memory.read s.mem (((s.work.pb.toNat + 2 * i) % 2 ^ s.cfg.aw + 1) % 2 ^ s.cfg.aw) ++
              Memory.read s.mem ((s.work.pb.toNat + 2 * i) % 2 ^ s.cfg.aw)
          else l.vb })

/-- R144, R146: VWMUL, code 0x5, puts the exact product of `alpha_l` and `VB[i]` into `VW[i]`, VNSAT, code 0x7, the
clamped `VW[i]` into `VY[i]`, in the active lanes, and nothing else changes. -/
def Obligations.MultiplyAndNarrowPerLane : Prop :=
  decode (.m4 0x5) = .ok .vwmul ∧ decode (.m4 0x7) = .ok .vnsat ∧ ∀ s : State,
    (∃ t, exec .vwmul s = .next t ∧ t = { s with lanes := t.lanes, upc := 0x6 } ∧
      t.lanes.length = s.lanes.length ∧
      ∀ (i : Nat) (l : Lane), s.lanes[i]? = some l → t.lanes[i]? = some { l with
        vw := if i < s.work.vl.toNat then BitVec.ofInt 32 (s.work.alphaL.toInt * l.vb.toInt) else l.vw }) ∧
    (∃ t, exec .vnsat s = .next t ∧ t = { s with lanes := t.lanes, upc := 0x8 } ∧
      t.lanes.length = s.lanes.length ∧
      ∀ (i : Nat) (l : Lane), s.lanes[i]? = some l → t.lanes[i]? = some { l with
        vy := if i < s.work.vl.toNat then
            (if l.vw.toInt > 32767 then 0x7FFF
             else if l.vw.toInt < -32768 then 0x8000
             else l.vw.extractLsb' 0 16)
          else l.vy })

/-- R145: VWADD adds the sign-extended `VA[i]` into `VW[i]` in the active lanes, wherever the sum fits 32 bits, and
nothing else changes. Where it does not fit, which no run reaches, the element is a free value (R112, X7; log 8). -/
def Obligations.WideningAddPerLane : Prop :=
  ∀ s : State, ∃ t, exec .vwadd s = .next t ∧ t = { s with lanes := t.lanes, upc := 0x7 } ∧
    t.lanes.length = s.lanes.length ∧
    ∀ (i : Nat) (l : Lane), s.lanes[i]? = some l →
      ∃ l', t.lanes[i]? = some l' ∧ l' = { l with vw := l'.vw } ∧
        (s.work.vl.toNat ≤ i → l'.vw = l.vw) ∧
        (i < s.work.vl.toNat → -2147483648 ≤ l.va.toInt + l.vw.toInt → l.va.toInt + l.vw.toInt ≤ 2147483647 →
          l'.vw = BitVec.ofInt 32 (l.va.toInt + l.vw.toInt) ∧ l'.vw.toInt = l.va.toInt + l.vw.toInt)

/-- R147: VSTY stores the active elements of VY: every address outside the stored bytes reads as before; where the group
does not run past the top of the address space each element's low byte is at `py + 2*i` and its high byte at the next
address; nothing else changes. -/
def Obligations.StoreWritesTheActiveElements : Prop :=
  ∀ s : State, Memory.wf s.mem → GroupAdmitted s.cfg engineWrites s.work.py s.activeLanes →
    ∃ t, exec .vsty s = .next t ∧ t = { s with mem := t.mem, upc := 0x9 } ∧
      (∀ x, (∀ i, i < s.activeLanes → x ≠ elemAddr s.cfg s.work.py i ∧
          x ≠ secondByte s.cfg (elemAddr s.cfg s.work.py i)) →
        Memory.read t.mem x = Memory.read s.mem x) ∧
      (s.work.py.toNat + 2 * s.work.vl.toNat ≤ 2 ^ s.cfg.aw →
        ∀ (i : Nat) (l : Lane), i < s.work.vl.toNat → s.lanes[i]? = some l →
          Memory.read t.mem (s.work.py.toNat + 2 * i) = l.vy.extractLsb' 0 8 ∧
          Memory.read t.mem (s.work.py.toNat + 2 * i + 1) = l.vy.extractLsb' 8 8)

/-- R65 (D23): a load or store of a group with an address the platform does not admit gets no meaning: it is refused by
name, with no partial effect (log 13). -/
def Obligations.UnadmittedGroupsAreRefused : Prop :=
  ∀ s : State,
    (¬ GroupAdmitted s.cfg engineReads s.work.pa s.activeLanes → exec .vlda s = .refused .accessNotAdmitted) ∧
    (¬ GroupAdmitted s.cfg engineReads s.work.pb s.activeLanes → exec .vldb s = .refused .accessNotAdmitted) ∧
    (¬ GroupAdmitted s.cfg engineWrites s.work.py s.activeLanes → exec .vsty s = .refused .accessNotAdmitted)

/-- R36, R149: no lane micro-operation reads a tail element: two states that agree on the active lanes answer alike, in
memory, in the active lanes and in everything else. -/
def Obligations.TailElementsAreNeverRead : Prop :=
  ∀ (i : Instr) (s t : State) (ls : List Lane), isLaneUop i = true → ls.length = s.lanes.length →
    (∀ k, k < s.work.vl.toNat → ls[k]? = s.lanes[k]?) → exec i s = .next t →
    ∃ t', exec i { s with lanes := ls } = .next t' ∧ t' = { t with lanes := t'.lanes } ∧
      (∀ k, k < s.work.vl.toNat → t'.lanes[k]? = t.lanes[k]?) ∧
      (∀ k, s.work.vl.toNat ≤ k → t'.lanes[k]? = ls[k]?)

/-! ## The host commands (spec/42_engine.md section 2) -/

/-- R171: an accepted START of the idle engine latches the arguments, sets `vlim`, clears DONE and moves `upc` to 0x1;
`vl`, the lane registers, the command registers and memory stay. `vlim` is cut to CW bits as R32 says; `env.launch` is
the model's own copy of the arguments (log 15). -/
def Obligations.StartLatchesTheArguments : Prop :=
  ∀ (s : State) (g : BitVec 30), configWf s.cfg = true → s.busy = false →
    launchRefusal s.cfg s.launchArgs = none →
    ∃ tS tV,
      exec (.startS g) s = .next tS ∧ exec (.startV g) s = .next tV ∧
      tS.work.vlim.toNat = 1 ∧
      tV.work.vlim.toNat = (if s.cfg.hasVector then min s.cfg.vlmax (2 ^ s.cfg.cw - 1) else 1) ∧
      ∀ t, t = tS ∨ t = tV → t = { s with
        work := { rem := s.cmd.n, pa := s.cmd.aBase, pb := s.cmd.bBase, py := s.cmd.yBase, alphaL := s.cmd.alpha,
                  vlim := t.work.vlim, vl := s.work.vl }
        done := false
        upc := 0x1
        env := { s.env with launch := ⟨s.cmd.n, s.cmd.aBase, s.cmd.bBase, s.cmd.yBase⟩ } }

/-- R180: a write to CTRL with bit 0 = 1 while the engine is busy changes nothing at all, in all three spellings. -/
def Obligations.StartWhileBusyIsDropped : Prop :=
  ∀ (s : State) (g : BitVec 30) (d : Word), s.busy = true →
    exec (.startS g) s = .next s ∧ exec (.startV g) s = .next s ∧
    (d.getLsbD 0 = true → exec (.wr .ctrl d) s = .next s)

/-- R177: without vector hardware the vectorized kernel is started exactly as the scalar one. -/
def Obligations.FallbackIsTheScalarKernel : Prop :=
  ∀ (s : State) (g : BitVec 30), s.cfg.hasVector = false → exec (.startV g) s = exec (.startS g) s

/-- R65, R66, R67 (D23): a START of the idle engine whose buffers break a precondition is refused by name, in both
forms; with `n = 0` it never is (log 12). -/
def Obligations.BrokenPreconditionsRefuseTheLaunch : Prop :=
  ∀ (s : State) (g : BitVec 30), s.busy = false →
    (∀ r, launchRefusal s.cfg s.launchArgs = some r →
      exec (.startS g) s = .refused r ∧ exec (.startV g) s = .refused r ∧
      (r = .bufferNotAdmitted ∨ r = .bufferOnDevice ∨ r = .bufferAliased)) ∧
    (s.cmd.n = 0 → launchRefusal s.cfg s.launchArgs = none)

/-- R65, R66: a launch is accepted exactly when it has no elements, or every byte of A and B is memory the engine may
read and every byte of Y memory it may write, no buffer runs past the top, and Y is A, B, or apart from them. What an
address is to the platform is the model's memory map (log 2). -/
def Obligations.LaunchAcceptedIffPreconditionsHold : Prop :=
  ∀ (c : Config) (l : Launch), configWf c = true →
    (launchRefusal c l = none ↔
      l.n = 0 ∨
      ((l.aBase.toNat + 2 * l.n.toNat ≤ 2 ^ c.aw ∧ l.bBase.toNat + 2 * l.n.toNat ≤ 2 ^ c.aw ∧
        l.yBase.toNat + 2 * l.n.toNat ≤ 2 ^ c.aw) ∧
       (∀ k, k < 2 * l.n.toNat → admits c engineReads (l.aBase.toNat + k) = true ∧
         admits c engineReads (l.bBase.toNat + k) = true ∧ admits c engineWrites (l.yBase.toNat + k) = true) ∧
       (l.yBase = l.aBase ∨ l.yBase.toNat + 2 * l.n.toNat ≤ l.aBase.toNat ∨
         l.aBase.toNat + 2 * l.n.toNat ≤ l.yBase.toNat) ∧
       (l.yBase = l.bBase ∨ l.yBase.toNat + 2 * l.n.toNat ≤ l.bBase.toNat ∨
         l.bBase.toNat + 2 * l.n.toNat ≤ l.yBase.toNat)))

/-- R178: WR stores the operand cut to the register's bits, in every engine state, and changes nothing else: N keeps
bits CW-1:0, ALPHA bits 15:0, a base bits AW-1:1; STATUS and CAP store nothing; a write of CTRL is a START when bit 0
is 1, of the kernel bit 1 names, and nothing otherwise. -/
def Obligations.WrStoresTheCutOperand : Prop :=
  ∀ (s : State) (d : Word), s.cfg.aw ≤ 32 → s.cfg.cw ≤ 32 →
    (∃ v, exec (.wr .n d) s = .next { s with cmd := { s.cmd with n := v } } ∧
      ∀ k, v.getLsbD k = (decide (k < s.cfg.cw) && d.getLsbD k)) ∧
    exec (.wr .alpha d) s = .next { s with cmd := { s.cmd with alpha := d.extractLsb' 0 16 } } ∧
    (∃ v, (∀ k, v.getLsbD k = (decide (1 ≤ k) && decide (k < s.cfg.aw) && d.getLsbD k)) ∧
      exec (.wr .aBase d) s = .next { s with cmd := { s.cmd with aBase := v } } ∧
      exec (.wr .bBase d) s = .next { s with cmd := { s.cmd with bBase := v } } ∧
      exec (.wr .yBase d) s = .next { s with cmd := { s.cmd with yBase := v } }) ∧
    exec (.wr .status d) s = .next s ∧ exec (.wr .cap d) s = .next s ∧
    (d.getLsbD 0 = false → exec (.wr .ctrl d) s = .next s) ∧
    (d.getLsbD 0 = true → ∀ g, exec (.wr .ctrl d) s = if d.getLsbD 1 then exec (.startV g) s else exec (.startS g) s)

/-- R179: RD returns the register the rule's table gives and changes no state of the machine; the value is in the
model's own return channel (log 16). -/
def Obligations.RdReturnsTheRegister : Prop :=
  ∀ (s : State) (g : Word),
    exec (.rd .ctrl g) s = .next { s with env := { s.env with hostRead := some 0 } } ∧
    (∃ v, exec (.rd .status g) s = .next { s with env := { s.env with hostRead := some v } } ∧
      ∀ k, v.getLsbD k = ((decide (k = 0) && (s.upc != 0)) || (decide (k = 1) && s.done))) ∧
    exec (.rd .n g) s = .next { s with env := { s.env with hostRead := some s.cmd.n } } ∧
    exec (.rd .alpha g) s = .next { s with env := { s.env with hostRead := some (s.cmd.alpha.zeroExtend 32) } } ∧
    exec (.rd .aBase g) s = .next { s with env := { s.env with hostRead := some s.cmd.aBase } } ∧
    exec (.rd .bBase g) s = .next { s with env := { s.env with hostRead := some s.cmd.bBase } } ∧
    exec (.rd .yBase g) s = .next { s with env := { s.env with hostRead := some s.cmd.yBase } } ∧
    (∃ v, exec (.rd .cap g) s = .next { s with env := { s.env with hostRead := some v } } ∧
      (s.cfg.vlmax ≤ 65535 → v.toNat = s.cfg.vlmax + if s.cfg.hasVector then 65536 else 0))

/-! ## What no instruction does (whole-machine rules of the prose) -/

/-- R22: the engine writes none of the argument registers, and no host command but WR does. -/
def Obligations.OnlyWrChangesArgumentRegisters : Prop :=
  ∀ (i : Instr) (s t : State), exec i s = .next t → t.cmd ≠ s.cmd →
    ∃ r d, i = .wr r d ∧ r ≠ .ctrl ∧ r ≠ .status ∧ r ≠ .cap

/-- R34, R24: DONE changes only in the CHKN that finds no element left, which sets it, and in a START of the idle
engine, which clears it. -/
def Obligations.OnlyChknAndStartChangeDone : Prop :=
  ∀ (i : Instr) (s t : State), exec i s = .next t → t.done ≠ s.done →
    (i = .chkn ∧ s.work.rem = 0 ∧ t.done = true) ∨
    ((isStart i = true ∨ ∃ d, i = .wr .ctrl d ∧ d.getLsbD 0 = true) ∧ s.busy = false ∧ t.done = false)

/-- R64, R29: no instruction but VSTY changes any byte of memory, and none changes the configuration or the lanes but
the lane micro-operations. -/
def Obligations.OnlyVstyChangesMemory : Prop :=
  ∀ (i : Instr) (s t : State), exec i s = .next t →
    t.cfg = s.cfg ∧ (i ≠ .vsty → ∀ a, Memory.read t.mem a = Memory.read s.mem a) ∧
    (isLaneUop i = false ∨ i = .vsty → t.lanes = s.lanes) ∧
    (isLaneUop i = true → t.work = s.work ∧ t.env = s.env)

/-- R32, R238: the micro-operations neither read nor write the argument registers: with other values in them the engine
does the same, and they keep those values. -/
def Obligations.RunsIgnoreTheArgumentRegisters : Prop :=
  ∀ (i : Instr) (s t : State) (c : CmdRegs), isUop i = true → exec i s = .next t →
    exec i { s with cmd := c } = .next { t with cmd := c }

/-- R178, R180, R187: while a run is in progress every host access completes and leaves the run alone: `upc`, DONE, the
working registers, the lanes, memory and the latched arguments. -/
def Obligations.HostAccessesLeaveTheRunAlone : Prop :=
  ∀ (s : State) (w : HostWord), s.busy = true →
    ∃ t, exec (decodeHost w) s = .next t ∧ t = { s with
      cmd := t.cmd
      env := { s.env with hostRead := t.env.hostRead } }

/-- R76 (X3), R187: a host write to a buffer of the run in progress is refused; a host write of other memory changes
that byte alone; a host read completes and changes nothing of the machine. What memory the host reaches is the model's
memory map (logs 2, 14). -/
def Obligations.HostMemoryMoves : Prop :=
  ∀ (s : State) (a : Word) (v : Byte) (rest : List Move), admits s.cfg hostReaches a.toNat = true →
    (s.env.schedule = .store a v :: rest →
      (s.inRunBuffers a.toNat = true → step s = .refused .hostWritesBuffer) ∧
      (s.inRunBuffers a.toNat = false → Memory.wf s.mem → ∃ t, step s = .next t ∧
        t = { s with mem := t.mem, env := { s.env with schedule := rest } } ∧
        Memory.read t.mem a.toNat = v ∧ ∀ x, x ≠ a.toNat → Memory.read t.mem x = Memory.read s.mem x)) ∧
    (s.env.schedule = .load a :: rest → ∃ t, step s = .next t ∧
      t = { s with env := { s.env with
        schedule := rest, freeCount := t.env.freeCount, hostRead := t.env.hostRead } } ∧
      (s.inRunOutput a.toNat = false → t.env.hostRead = some ((Memory.read s.mem a.toNat).zeroExtend 32)))

/-! ## Steps -/

/-- A step is the instruction the next code word decodes to, in the state whose schedule has moved on: the
micro-operation whose code is in `upc` where the engine moves next (R170), the host's word where an access does; an
idle engine has no step, so nothing else changes. The schedule is the model's own (log 11). -/
def Obligations.StepRunsTheDecodedInstruction : Prop :=
  ∀ (s : State) (i : Instr), i.wellFormed = true →
    (s.engineMovesNext → encode i = .m4 s.upc →
      step s = exec i { s with env := { s.env with schedule := s.scheduleAfter } }) ∧
    (∀ (w : HostWord) (rest : List Move), s.env.schedule = .access w :: rest → encode i = .h36 w →
      step s = exec i { s with env := { s.env with schedule := rest } }) ∧
    (s.engineMovesNext → s.busy = false →
      step s = .next { s with env := { s.env with schedule := s.scheduleAfter } })

/-- R188: the only transfers of control. START, an access that decodes to START.S or START.V, moves 0x0 to 0x1, CHKN 0x1 to 0x0 or 0x2, the datapath micro-operations
fall through to the next code, ADV moves 0x9 to 0x1, and the reset input moves to 0x0 (R230); no other step moves
`upc`. -/
def Obligations.OnlyTransfersOfControl : Prop :=
  ∀ s t : State, step s = .next t →
    (s.env.schedule.head? = some .reset → t.upc = 0x0) ∧
    (s.env.schedule.head? ≠ some .reset → t.upc ≠ s.upc →
      (s.upc = 0x0 ∧ t.upc = 0x1 ∧
        ∃ w, s.env.schedule.head? = some (.access w) ∧ isStart (decodeHost w) = true) ∨
      (s.engineMovesNext ∧
        ((s.upc = 0x1 ∧ (t.upc = 0x0 ∨ t.upc = 0x2)) ∨
         (2 ≤ s.upc.toNat ∧ s.upc.toNat ≤ 8 ∧ t.upc = s.upc + 1) ∨
         (s.upc = 0x9 ∧ t.upc = 0x1))))

/-! ## Reset (spec/10_state.md R40, spec/70_reset_and_hazards.md R230, R231) -/

/-- R40: what the host reads right after reset, with the default parameters (T9): STATUS and the argument registers 0,
CAP 0x00010004; nothing is listed in memory (log 3). -/
def Obligations.ResetStateReadsAsTheSpecSays : Prop :=
  State.reset.upc = 0 ∧ State.reset.done = false ∧
  (∀ r, r ≠ .cap → State.reset.readCReg r = 0) ∧ State.reset.readCReg .cap = 0x00010004 ∧ State.reset.mem = []

/-- R230, R231: the reset input, from any state: the engine is idle, DONE and the argument registers are 0, CAP and
memory are as they were. The working and lane registers are unspecified: nothing is said of them but that each lane
register has VLMAX elements. -/
def Obligations.ResetInputAbandonsTheRun : Prop :=
  ∀ (s : State) (rest : List Move), s.env.schedule = .reset :: rest →
    ∃ t, step s = .next t ∧ t.upc = 0 ∧ t.done = false ∧
      t.cmd = { n := 0, alpha := 0, aBase := 0, bBase := 0, yBase := 0 } ∧
      t.readCReg .cap = s.readCReg .cap ∧ t.readCReg .status = 0 ∧ t.mem = s.mem ∧ t.lanes.length = s.cfg.vlmax ∧
      t.cfg = s.cfg ∧ t.env.schedule = rest

/-! ## Invariants -/

/-- The state after reset is safe. -/
def Obligations.ResetStateIsSafe : Prop := State.reset.Safe

/-- Every step, of either agent or of the reset input, keeps the safe states: reserved register bits 0, lanes VLMAX,
memory canonical and inside the address space, `upc` a code, BUSY and DONE never both 1, and in a run the pointers,
the count and the group as R173 and R141 say. -/
def Obligations.EveryStepKeepsSafeStates : Prop :=
  ∀ s t : State, s.Safe → step s = .next t → t.Safe

/-- A run that a START began is never refused by the model: in a safe busy state the engine's step answers a next
state. -/
def Obligations.EngineIsNeverStuckInARun : Prop :=
  ∀ s : State, s.Safe → s.busy = true → s.engineMovesNext → ∃ t, step s = .next t

/-- R24: STATUS reads one of three values in every safe state. -/
def Obligations.StatusReadsOneOfThreeValues : Prop :=
  ∀ s : State, s.Safe →
    s.readCReg .status = 0 ∨ s.readCReg .status = 1 ∨ s.readCReg .status = 2

/-- R62: every access of a run is to an even address: the elements of the three buffers at the run's pointers. -/
def Obligations.RunAddressesAreEven : Prop :=
  ∀ (s : State) (i : Nat), s.Safe → s.busy = true →
    elemAddr s.cfg s.work.pa i % 2 = 0 ∧ elemAddr s.cfg s.work.pb i % 2 = 0 ∧ elemAddr s.cfg s.work.py i % 2 = 0

/-! ## Runs (spec/42_engine.md section 4) -/

/-- R181: START with `N = 0`, whatever the bases hold, ends after one engine step, CHKN, with no byte of memory and no
lane register touched; the host may see STATUS 0x00000001 between the two steps. -/
def Obligations.EmptyRunTouchesNothing : Prop :=
  ∀ (s : State) (i : Instr), isStart i = true → s.busy = false → s.cmd.n = 0 → s.env.schedule = [] →
    ∃ s1 t, exec i s = .next s1 ∧ s1.readCReg .status = 1 ∧ step s1 = .next t ∧
      t.upc = 0 ∧ t.readCReg .status = 2 ∧ t.mem = s.mem ∧ t.lanes = s.lanes ∧ t.cmd = s.cmd

/-- R150: from SETVL to VSTY a pass of a safe run stores, for every element of the group the draw gave, the lane
function of what memory held before the pass at the group's elements of A and B; no other byte changes. -/
def Obligations.GroupStoresTheLaneFunction : Prop :=
  ∀ s : State, s.Safe → s.upc = 2 → s.env.schedule = [] →
    ∃ t, Host.Core.run Sys2Proof.core 7 s = .next t ∧ t.upc = 9 ∧
      1 ≤ t.work.vl.toNat ∧ t.work.vl.toNat ≤ min s.work.rem.toNat s.work.vlim.toNat ∧
      (∀ i, i < t.work.vl.toNat → Memory.elem s.cfg t.mem s.work.py i =
        mac (Memory.elem s.cfg s.mem s.work.pa i) s.work.alphaL (Memory.elem s.cfg s.mem s.work.pb i)) ∧
      (∀ x, x < s.work.py.toNat ∨ s.work.py.toNat + 2 * t.work.vl.toNat ≤ x →
        Memory.read t.mem x = Memory.read s.mem x)

/-- R182: a START of either form, accepted by the idle engine in a safe state of any configuration, with any draws and
with the host's register accesses interleaved in any way: the run ends with DONE, memory Y equals AXPY_REF of the
contents at the START, and every other byte is as it was. -/
def Obligations.RunLeavesAxpyRefInMemory : Prop :=
  ∀ (s : State) (i : Instr), isStart i = true → s.Safe → s.busy = false →
    launchRefusal s.cfg s.launchArgs = none → (∀ m ∈ s.env.schedule, m.isQuiet = true) →
    ∃ s1 k t, exec i s = .next s1 ∧ Host.Core.run Sys2Proof.core k s1 = .next t ∧
      (∀ j, j < k → ∃ u, Host.Core.run Sys2Proof.core j s1 = .next u ∧ u.busy = true) ∧
      t.busy = false ∧ t.done = true ∧
      (List.range s.cmd.n.toNat).map (Memory.elem s.cfg t.mem s.cmd.yBase) =
        axpyRef s.cmd.n.toNat s.cmd.alpha (Memory.elem s.cfg s.mem s.cmd.aBase)
          (Memory.elem s.cfg s.mem s.cmd.bBase) ∧
      (∀ x, x < s.cmd.yBase.toNat ∨ s.cmd.yBase.toNat + 2 * s.cmd.n.toNat ≤ x →
        Memory.read t.mem x = Memory.read s.mem x)

/-- R184: an accepted run of the engine alone ends, after exactly `9*g + 1` engine steps for a number of passes `g`
between `ceil(n / vlim)` and `n`, and is busy until then. -/
def Obligations.RunEndsAfterNineStepsAPass : Prop :=
  ∀ (s : State) (i : Instr), isStart i = true → s.Safe → s.busy = false →
    launchRefusal s.cfg s.launchArgs = none → s.env.schedule = [] →
    ∃ s1 g t, exec i s = .next s1 ∧ Host.Core.run Sys2Proof.core (9 * g + 1) s1 = .next t ∧
      t.busy = false ∧ t.done = true ∧ t.work.rem = 0 ∧
      (∀ j, j < 9 * g + 1 → ∃ u, Host.Core.run Sys2Proof.core j s1 = .next u ∧ u.busy = true) ∧
      g ≤ s.cmd.n.toNat ∧ s.cmd.n.toNat ≤ g * s1.work.vlim.toNat

/-- R182, R183, R177: the two kernels agree bit for bit, and the grants change nothing of what R183 names but the set of
bytes accessed, which is not spoken of: two accepted runs from safe idle states with the same arguments and memory, of
either form, on instances that may differ in VLMAX, HAS_VECTOR, CW, memory map and draws, end with the same memory and
with DONE, and where the host writes no register each ends with the command registers it started from. The host's
register accesses and engine moves may be scheduled in any way (log 11); a run is looked at up to its end, or after it
where nothing is scheduled any more, so that no later START is mixed in. -/
def Obligations.KernelsAndGrantsAgree : Prop :=
  ∀ (s s' s1 s1' t t' : State) (i i' : Instr) (k k' : Nat), isStart i = true → isStart i' = true →
    s.Safe → s'.Safe → s.busy = false → s'.busy = false →
    (∀ m ∈ s.env.schedule, m.isQuiet = true) → (∀ m ∈ s'.env.schedule, m.isQuiet = true) →
    s'.cfg.aw = s.cfg.aw → s'.cmd = s.cmd → s'.mem = s.mem →
    exec i s = .next s1 → exec i' s' = .next s1' →
    Host.Core.run Sys2Proof.core k s1 = .next t → Host.Core.run Sys2Proof.core k' s1' = .next t' →
    (∀ j, j < k → ∃ u, Host.Core.run Sys2Proof.core j s1 = .next u ∧ (u.busy = true ∨ u.env.schedule = [])) →
    (∀ j, j < k' → ∃ u, Host.Core.run Sys2Proof.core j s1' = .next u ∧ (u.busy = true ∨ u.env.schedule = [])) →
    t.busy = false → t'.busy = false →
    t.mem = t'.mem ∧ t.done = true ∧ t'.done = true ∧
      ((∀ w r d, Move.access w ∈ s.env.schedule → decodeHost w ≠ .wr r d) → t.cmd = s.cmd) ∧
      ((∀ w r d, Move.access w ∈ s'.env.schedule → decodeHost w ≠ .wr r d) → t'.cmd = s.cmd)
end

