-- ==== Sys2Proof/Laws/Arith.lean ====
section
/-! SUPPORT. The arithmetic units as integers: each bit pattern the units form is the exact integer it stands for. -/

namespace Sys2Proof.Machine

open Sys2Proof

/-- The range of a Q15 value (spec/10_state.md R20). -/
theorem q15_range (x : Q15) : -32768 ≤ x.toInt ∧ x.toInt ≤ 32767 := by
  have h1 := BitVec.le_toInt x
  have h2 := BitVec.toInt_lt (x := x)
  norm_num at h1 h2
  omega

/-- The range of a product of two Q15 values (spec/40_arith_units.md R111). -/
theorem q15_mul_range (x y : Q15) :
    -1073709056 ≤ x.toInt * y.toInt ∧ x.toInt * y.toInt ≤ 1073741824 := by
  obtain ⟨h1, h2⟩ := q15_range x
  obtain ⟨h3, h4⟩ := q15_range y
  constructor
  · rcases le_total 0 x.toInt with hx | hx
    · nlinarith
    · rcases le_total 0 y.toInt with hy | hy <;> nlinarith
  · rcases le_total 0 x.toInt with hx | hx
    · rcases le_total 0 y.toInt with hy | hy <;> nlinarith
    · rcases le_total 0 y.toInt with hy | hy <;> nlinarith

/-- An integer in the W32 range survives being a pattern. -/
theorem toInt_ofInt32 {v : Int} (h1 : -2147483648 ≤ v) (h2 : v ≤ 2147483647) : (BitVec.ofInt 32 v).toInt = v := by
  rw [BitVec.toInt_ofInt]
  exact Int.bmod_eq_of_le (by norm_num; omega) (by norm_num; omega)

/-- QMUL never discards a bit. -/
theorem qmul_toInt (x y : Q15) : (qmul x y).toInt = x.toInt * y.toInt := by
  obtain ⟨h1, h2⟩ := q15_mul_range x y
  exact toInt_ofInt32 (by omega) (by omega)

/-- WADD is exact wherever the sum fits. -/
theorem wadd_toInt {a : Q15} {p : W32} (h1 : -2147483648 ≤ a.toInt + p.toInt) (h2 : a.toInt + p.toInt ≤ 2147483647) :
    (wadd a p).toInt = a.toInt + p.toInt := by
  rw [wadd, if_pos (by simp [fitsW32, h1, h2])]
  exact toInt_ofInt32 h1 h2

/-- The sum of a lane never overflows. -/
theorem wadd_qmul_toInt (a x y : Q15) : (wadd a (qmul x y)).toInt = a.toInt + x.toInt * y.toInt := by
  obtain ⟨h1, h2⟩ := q15_mul_range x y
  obtain ⟨h3, h4⟩ := q15_range a
  rw [wadd_toInt (by rw [qmul_toInt]; omega) (by rw [qmul_toInt]; omega), qmul_toInt]

/-- Cutting an in-range W32 to 16 bits loses nothing. -/
theorem toInt_low16 {s : W32} (h1 : -32768 ≤ s.toInt) (h2 : s.toInt ≤ 32767) : (s.extractLsb' 0 16).toInt = s.toInt := by
  have h : s.extractLsb' 0 16 = BitVec.ofInt 16 s.toInt := by
    apply BitVec.eq_of_toNat_eq
    rw [BitVec.extractLsb'_toNat, BitVec.toNat_ofInt, BitVec.toInt_eq_toNat_cond]
    have := s.isLt
    split <;> norm_num <;> omega
  rw [h, BitVec.toInt_ofInt]
  exact Int.bmod_eq_of_le (by norm_num; omega) (by norm_num; omega)

/-- SATN as a clamp of integers. -/
theorem satn_toInt (s : W32) : (satn s).toInt = max (-32768) (min 32767 s.toInt) := by
  rw [satn]
  split
  · rw [show (0x7FFF : Q15).toInt = 32767 from by decide]; omega
  · split
    · rw [show (0x8000 : Q15).toInt = -32768 from by decide]; omega
    · rw [toInt_low16 (by omega) (by omega)]; omega

/-- MAC as a clamp of the exact sum. -/
theorem mac_toInt (a x y : Q15) : (mac a x y).toInt = max (-32768) (min 32767 (a.toInt + x.toInt * y.toInt)) := by
  rw [mac, satn_toInt, wadd_qmul_toInt]

end Sys2Proof.Machine
end

