-- ==== Sys2Proof/Laws/Decode.lean ====
section
/-! SUPPORT. The fields of a host word built from its fields, the code map read both ways, and what a step is for each
kind of next move. -/

namespace Sys2Proof

@[simp] theorem hostWord_we (we : BitVec 1) (idx : BitVec 3) (data : Word) :
    HostWord.we (hostWord we idx data) = we.getLsbD 0 := by
  simp only [HostWord.we, hostWord, BitVec.getLsbD_append]
  rw [if_neg (by omega), if_neg (by omega)]

@[simp] theorem hostWord_idx (we : BitVec 1) (idx : BitVec 3) (data : Word) :
    HostWord.idx (hostWord we idx data) = idx := by
  ext i hi
  simp only [HostWord.idx, hostWord, BitVec.getElem_extractLsb', BitVec.getLsbD_append]
  rw [if_neg (by omega), if_pos (by omega), Nat.add_sub_cancel_left, BitVec.getLsbD_eq_getElem]

@[simp] theorem hostWord_data (we : BitVec 1) (idx : BitVec 3) (data : Word) :
    HostWord.data (hostWord we idx data) = data := by
  ext i hi
  simp only [HostWord.data, hostWord, BitVec.getElem_extractLsb', BitVec.getLsbD_append]
  rw [if_pos (by omega), Nat.zero_add, BitVec.getLsbD_eq_getElem]

/-- A host word is its three fields. -/
theorem hostWord_eta (w : HostWord) :
    hostWord (BitVec.ofBool (HostWord.we w)) (HostWord.idx w) (HostWord.data w) = w := by
  apply BitVec.eq_of_getLsbD_eq
  intro i hi
  simp only [hostWord, HostWord.we, HostWord.idx, HostWord.data, BitVec.getLsbD_append, BitVec.getLsbD_extractLsb',
    BitVec.getLsbD_ofBool]
  split
  · simp [*]
  · split
    · rw [show 32 + (i - 32) = i by omega]; simp [*]
    · rw [show i = 35 by omega]; simp

@[simp] theorem CReg.ofIndex_index (r : CReg) : CReg.ofIndex r.index = r := by cases r <;> rfl

theorem CReg.index_ofIndex : ∀ idx : BitVec 3, (CReg.ofIndex idx).index = idx := by decide

theorem CReg.index_eq_zero {r : CReg} : r.index = 0 ↔ r = .ctrl := by cases r <;> decide

theorem decode_m4 (c : UopCode) : decode (.m4 c) = decodeUop c := rfl

theorem decode_h36 (w : HostWord) : decode (.h36 w) = .ok (decodeHost w) := rfl

/-- The code of each micro-operation, and no other code, decodes to it. -/
theorem decodeUop_eq_ok {code : UopCode} {i : Instr} (h : decodeUop code = .ok i) :
    encode i = .m4 code := by
  have key : ∀ c : UopCode, (match decodeUop c with | .ok i => encode i == .m4 c | .error _ => true) = true := by
    decide
  have := key code
  rw [h] at this
  exact eq_of_beq this

end Sys2Proof
end

