-- ==== Sys2Proof/Laws/Lanes.lean ====
section
/-! SUPPORT. Lanes: a micro-operation changes the active ones and keeps the others. -/

namespace Sys2Proof.Machine

open Sys2Proof

@[simp] theorem mapActive_length (vl : Nat) (f : Nat → Lane → Lane) (ls : List Lane) :
    (mapActive vl f ls).length = ls.length := List.length_mapIdx

@[simp] theorem mapActive_getElem (vl : Nat) (f : Nat → Lane → Lane) (ls : List Lane) (i : Nat)
    (h : i < (mapActive vl f ls).length) :
    (mapActive vl f ls)[i] =
      if i < vl then f i (ls[i]'(by simpa using h)) else ls[i]'(by simpa using h) := by
  simp [mapActive]

theorem mapActive_getElem? (vl : Nat) (f : Nat → Lane → Lane) (ls : List Lane) (i : Nat) :
    (mapActive vl f ls)[i]? = ls[i]?.map fun l => if i < vl then f i l else l := by
  simp [mapActive]

/-- An active lane after a micro-operation. -/
theorem mapActive_active {vl : Nat} {f : Nat → Lane → Lane} {ls : List Lane} {i : Nat} (h : i < vl)
    (hl : i < ls.length) : (mapActive vl f ls)[i]'(by simpa using hl) = f i ls[i] := by simp [h]

/-- The values VSTY stores: element `i` is `VY[i]`, for the active lanes. -/
theorem storedValues_length (vl : Nat) (ls : List Lane) : ((ls.take vl).map Lane.vy).length = min vl ls.length := by
  simp

theorem storedValues_getElem {vl : Nat} {ls : List Lane} {i : Nat} (h : i < ((ls.take vl).map Lane.vy).length) :
    ((ls.take vl).map Lane.vy)[i] = (ls[i]'(by simp at h; omega)).vy := by
  simp

end Sys2Proof.Machine
end

