-- ==== Sys2Proof/Laws/State.lean ====
section
/-! SUPPORT. What each update of State leaves in each field: one lemma per field per update. -/

namespace Sys2Proof.Machine

open Sys2Proof

section
variable (s : State) (x : CmdRegs)
@[simp] theorem State.withCmd_cfg : (s.withCmd x).cfg = s.cfg := rfl
@[simp] theorem State.withCmd_cmd : (s.withCmd x).cmd = x := rfl
@[simp] theorem State.withCmd_done : (s.withCmd x).done = s.done := rfl
@[simp] theorem State.withCmd_upc : (s.withCmd x).upc = s.upc := rfl
@[simp] theorem State.withCmd_work : (s.withCmd x).work = s.work := rfl
@[simp] theorem State.withCmd_lanes : (s.withCmd x).lanes = s.lanes := rfl
@[simp] theorem State.withCmd_mem : (s.withCmd x).mem = s.mem := rfl
@[simp] theorem State.withCmd_env : (s.withCmd x).env = s.env := rfl
end

section
variable (s : State) (x : Bool)
@[simp] theorem State.withDone_cfg : (s.withDone x).cfg = s.cfg := rfl
@[simp] theorem State.withDone_cmd : (s.withDone x).cmd = s.cmd := rfl
@[simp] theorem State.withDone_done : (s.withDone x).done = x := rfl
@[simp] theorem State.withDone_upc : (s.withDone x).upc = s.upc := rfl
@[simp] theorem State.withDone_work : (s.withDone x).work = s.work := rfl
@[simp] theorem State.withDone_lanes : (s.withDone x).lanes = s.lanes := rfl
@[simp] theorem State.withDone_mem : (s.withDone x).mem = s.mem := rfl
@[simp] theorem State.withDone_env : (s.withDone x).env = s.env := rfl
end

section
variable (s : State) (x : UopCode)
@[simp] theorem State.withUpc_cfg : (s.withUpc x).cfg = s.cfg := rfl
@[simp] theorem State.withUpc_cmd : (s.withUpc x).cmd = s.cmd := rfl
@[simp] theorem State.withUpc_done : (s.withUpc x).done = s.done := rfl
@[simp] theorem State.withUpc_upc : (s.withUpc x).upc = x := rfl
@[simp] theorem State.withUpc_work : (s.withUpc x).work = s.work := rfl
@[simp] theorem State.withUpc_lanes : (s.withUpc x).lanes = s.lanes := rfl
@[simp] theorem State.withUpc_mem : (s.withUpc x).mem = s.mem := rfl
@[simp] theorem State.withUpc_env : (s.withUpc x).env = s.env := rfl
end

section
variable (s : State) (x : WorkRegs)
@[simp] theorem State.withWork_cfg : (s.withWork x).cfg = s.cfg := rfl
@[simp] theorem State.withWork_cmd : (s.withWork x).cmd = s.cmd := rfl
@[simp] theorem State.withWork_done : (s.withWork x).done = s.done := rfl
@[simp] theorem State.withWork_upc : (s.withWork x).upc = s.upc := rfl
@[simp] theorem State.withWork_work : (s.withWork x).work = x := rfl
@[simp] theorem State.withWork_lanes : (s.withWork x).lanes = s.lanes := rfl
@[simp] theorem State.withWork_mem : (s.withWork x).mem = s.mem := rfl
@[simp] theorem State.withWork_env : (s.withWork x).env = s.env := rfl
end

section
variable (s : State) (x : List Lane)
@[simp] theorem State.withLanes_cfg : (s.withLanes x).cfg = s.cfg := rfl
@[simp] theorem State.withLanes_cmd : (s.withLanes x).cmd = s.cmd := rfl
@[simp] theorem State.withLanes_done : (s.withLanes x).done = s.done := rfl
@[simp] theorem State.withLanes_upc : (s.withLanes x).upc = s.upc := rfl
@[simp] theorem State.withLanes_work : (s.withLanes x).work = s.work := rfl
@[simp] theorem State.withLanes_lanes : (s.withLanes x).lanes = x := rfl
@[simp] theorem State.withLanes_mem : (s.withLanes x).mem = s.mem := rfl
@[simp] theorem State.withLanes_env : (s.withLanes x).env = s.env := rfl
end

section
variable (s : State) (x : Memory)
@[simp] theorem State.withMem_cfg : (s.withMem x).cfg = s.cfg := rfl
@[simp] theorem State.withMem_cmd : (s.withMem x).cmd = s.cmd := rfl
@[simp] theorem State.withMem_done : (s.withMem x).done = s.done := rfl
@[simp] theorem State.withMem_upc : (s.withMem x).upc = s.upc := rfl
@[simp] theorem State.withMem_work : (s.withMem x).work = s.work := rfl
@[simp] theorem State.withMem_lanes : (s.withMem x).lanes = s.lanes := rfl
@[simp] theorem State.withMem_mem : (s.withMem x).mem = x := rfl
@[simp] theorem State.withMem_env : (s.withMem x).env = s.env := rfl
end

section
variable (s : State) (x : Env)
@[simp] theorem State.withEnv_cfg : (s.withEnv x).cfg = s.cfg := rfl
@[simp] theorem State.withEnv_cmd : (s.withEnv x).cmd = s.cmd := rfl
@[simp] theorem State.withEnv_done : (s.withEnv x).done = s.done := rfl
@[simp] theorem State.withEnv_upc : (s.withEnv x).upc = s.upc := rfl
@[simp] theorem State.withEnv_work : (s.withEnv x).work = s.work := rfl
@[simp] theorem State.withEnv_lanes : (s.withEnv x).lanes = s.lanes := rfl
@[simp] theorem State.withEnv_mem : (s.withEnv x).mem = s.mem := rfl
@[simp] theorem State.withEnv_env : (s.withEnv x).env = x := rfl
end

section
variable (s : State) (f : Nat → Lane → Lane)
@[simp] theorem State.updateLanes_cfg : (s.updateLanes f).cfg = s.cfg := rfl
@[simp] theorem State.updateLanes_cmd : (s.updateLanes f).cmd = s.cmd := rfl
@[simp] theorem State.updateLanes_done : (s.updateLanes f).done = s.done := rfl
@[simp] theorem State.updateLanes_upc : (s.updateLanes f).upc = s.upc := rfl
@[simp] theorem State.updateLanes_work : (s.updateLanes f).work = s.work := rfl
@[simp] theorem State.updateLanes_lanes : (s.updateLanes f).lanes = mapActive s.work.vl.toNat f s.lanes := rfl
@[simp] theorem State.updateLanes_mem : (s.updateLanes f).mem = s.mem := rfl
@[simp] theorem State.updateLanes_env : (s.updateLanes f).env = s.env := rfl
end

section
variable (s : State) (v : Word)
@[simp] theorem State.returnToHost_cfg : (s.returnToHost v).cfg = s.cfg := rfl
@[simp] theorem State.returnToHost_cmd : (s.returnToHost v).cmd = s.cmd := rfl
@[simp] theorem State.returnToHost_done : (s.returnToHost v).done = s.done := rfl
@[simp] theorem State.returnToHost_upc : (s.returnToHost v).upc = s.upc := rfl
@[simp] theorem State.returnToHost_work : (s.returnToHost v).work = s.work := rfl
@[simp] theorem State.returnToHost_lanes : (s.returnToHost v).lanes = s.lanes := rfl
@[simp] theorem State.returnToHost_mem : (s.returnToHost v).mem = s.mem := rfl
@[simp] theorem State.returnToHost_schedule : (s.returnToHost v).env.schedule = s.env.schedule := rfl
@[simp] theorem State.returnToHost_draws : (s.returnToHost v).env.draws = s.env.draws := rfl
@[simp] theorem State.returnToHost_freeCount : (s.returnToHost v).env.freeCount = s.env.freeCount := rfl
@[simp] theorem State.returnToHost_launch : (s.returnToHost v).env.launch = s.env.launch := rfl
@[simp] theorem State.returnToHost_hostRead : (s.returnToHost v).env.hostRead = some v := rfl
end

section
variable (s : State) (ms : List Move)
@[simp] theorem State.withSchedule_cfg : (s.withSchedule ms).cfg = s.cfg := rfl
@[simp] theorem State.withSchedule_cmd : (s.withSchedule ms).cmd = s.cmd := rfl
@[simp] theorem State.withSchedule_done : (s.withSchedule ms).done = s.done := rfl
@[simp] theorem State.withSchedule_upc : (s.withSchedule ms).upc = s.upc := rfl
@[simp] theorem State.withSchedule_work : (s.withSchedule ms).work = s.work := rfl
@[simp] theorem State.withSchedule_lanes : (s.withSchedule ms).lanes = s.lanes := rfl
@[simp] theorem State.withSchedule_mem : (s.withSchedule ms).mem = s.mem := rfl
@[simp] theorem State.withSchedule_schedule : (s.withSchedule ms).env.schedule = ms := rfl
@[simp] theorem State.withSchedule_draws : (s.withSchedule ms).env.draws = s.env.draws := rfl
@[simp] theorem State.withSchedule_freeCount : (s.withSchedule ms).env.freeCount = s.env.freeCount := rfl
@[simp] theorem State.withSchedule_hostRead : (s.withSchedule ms).env.hostRead = s.env.hostRead := rfl
@[simp] theorem State.withSchedule_launch : (s.withSchedule ms).env.launch = s.env.launch := rfl
end

/-- A state whose schedule is replaced by its own is the same state. -/
@[simp] theorem State.withSchedule_self (s : State) : s.withSchedule s.env.schedule = s := rfl

/-- Of two replacements of the schedule the later one counts. -/
@[simp] theorem State.withSchedule_withSchedule (s : State) (a b : List Move) :
    (s.withSchedule a).withSchedule b = s.withSchedule b := rfl

/-- BUSY is the condition `upc != 0x0` (spec/10_state.md R24). -/
theorem State.busy_iff (s : State) : s.busy = true ↔ s.upc ≠ 0 := bne_iff_ne

theorem State.idle_iff (s : State) : s.busy = false ↔ s.upc = 0 := bne_eq_false_iff_eq

end Sys2Proof.Machine
end

