-- ==== Sys2Proof/Laws/Operands.lean ====
section
/-! SUPPORT. What an operand is after it is cut to its register, and what a draw and a grant are. -/

namespace Sys2Proof.Machine

open Sys2Proof

/-- The ranges of a configuration the spec allows (spec/00_scope.md R6). -/
structure ConfigOk (c : Config) : Prop where
  vlmax_pos : 1 ≤ c.vlmax
  vlmax_le : c.vlmax ≤ 65535
  aw_ge : 2 ≤ c.aw
  aw_le : c.aw ≤ 32
  cw_ge : 1 ≤ c.cw
  cw_le : c.cw ≤ 32
  rising : c.regions.Pairwise fun r q => r.base + r.size ≤ q.base
  inside : ∀ r ∈ c.regions, r.base + r.size ≤ 2 ^ c.aw

theorem configOk_of_wf {c : Config} (h : configWf c = true) : ConfigOk c := by
  simp only [configWf, Bool.and_eq_true, decide_eq_true_eq, List.all_eq_true] at h
  obtain ⟨⟨⟨⟨⟨⟨⟨h1, h2⟩, h3⟩, h4⟩, h5⟩, h6⟩, h7⟩, h8⟩ := h
  exact ⟨h1, h2, h3, h4, h5, h6, h7, h8⟩

theorem two_pow_le_of_le {k : Nat} (h : k ≤ 32) : 2 ^ k ≤ 4294967296 :=
  Nat.pow_le_pow_right (n := 2) (by omega) h

theorem toNat_ofNat_mod {v k : Nat} (h : k ≤ 32) : (BitVec.ofNat 32 (v % 2 ^ k)).toNat = v % 2 ^ k := by
  rw [BitVec.toNat_ofNat]
  exact Nat.mod_eq_of_lt (Nat.lt_of_lt_of_le (Nat.mod_lt _ (Nat.two_pow_pos k)) (two_pow_le_of_le h))

theorem cutCount_toNat {c : Config} (h : c.cw ≤ 32) (v : Nat) : (cutCount c v).toNat = v % 2 ^ c.cw := toNat_ofNat_mod h

theorem cutAddr_toNat {c : Config} (h : c.aw ≤ 32) (v : Nat) : (cutAddr c v).toNat = v % 2 ^ c.aw := toNat_ofNat_mod h

theorem cutCount_lt {c : Config} (h : c.cw ≤ 32) (v : Nat) : (cutCount c v).toNat < 2 ^ c.cw := by
  rw [cutCount_toNat h]; exact Nat.mod_lt _ (Nat.two_pow_pos _)

theorem cutAddr_lt {c : Config} (h : c.aw ≤ 32) (v : Nat) : (cutAddr c v).toNat < 2 ^ c.aw := by
  rw [cutAddr_toNat h]; exact Nat.mod_lt _ (Nat.two_pow_pos _)

/-- A base register holds an even address of AW bits. -/
theorem cutBase_lt_even {c : Config} (h1 : 2 ≤ c.aw) (h : c.aw ≤ 32) (d : Word) :
    (cutBase c d).toNat < 2 ^ c.aw ∧ (cutBase c d).toNat % 2 = 0 := by
  refine ⟨cutAddr_lt h _, ?_⟩
  obtain ⟨k, hk⟩ : ∃ k, c.aw = k + 1 := ⟨c.aw - 1, by omega⟩
  rw [cutBase, cutAddr_toNat h, hk, pow_succ, Nat.mod_mod_of_dvd _ (Dvd.intro_left _ rfl)]
  omega

/-- The largest group width of a run is at least 1 and at most VLMAX. -/
theorem vlimOf_range {c : Config} (h : ConfigOk c) (vec : Bool) :
    1 ≤ (vlimOf c vec).toNat ∧ (vlimOf c vec).toNat ≤ c.vlmax ∧ (vlimOf c vec).toNat < 2 ^ c.cw := by
  have h1 := h.vlmax_pos
  have h2 := h.vlmax_le
  have h3 : 2 ^ 1 ≤ 2 ^ c.cw := Nat.pow_le_pow_right (by omega) h.cw_ge
  have h4 : 2 ^ c.cw ≤ 4294967296 := two_pow_le_of_le h.cw_le
  rw [vlimOf, BitVec.toNat_ofNat]
  split <;> rw [Nat.mod_eq_of_lt] <;> omega

/-- A grant of a set that is not empty is one of its members. -/
theorem grantOf_range {m : Nat} (d : Nat) (h : 1 ≤ m) : 1 ≤ grantOf d m ∧ grantOf d m ≤ m := by
  unfold grantOf
  split
  · omega
  · omega
  · have := Nat.mod_lt d (show m > 0 by omega)
    omega

/-- Every member of the set is the grant of some draw. -/
theorem grantOf_pred {v m : Nat} (h1 : 1 ≤ v) (h2 : v ≤ m) : grantOf (v - 1) m = v := by
  unfold grantOf
  split
  · omega
  · omega
  · rw [Nat.mod_eq_of_lt (by omega)]; omega

/-- Taking a draw changes only the list of draws and the counter of free values. -/
theorem takeDraw_spec (s : State) : ∃ ds k,
    s.takeDraw.2 = s.withEnv { s.env with draws := ds, freeCount := k } := by
  unfold State.takeDraw
  split
  · exact ⟨_, _, rfl⟩
  · rename_i h
    refine ⟨[], s.env.freeCount + 1, ?_⟩
    simp only [State.withEnv]
    rw [← h]

end Sys2Proof.Machine
end

