-- ==== Sys2Proof/Laws/Exec.lean ====
section
/-! SUPPORT. Said once: everything an instruction, a host move or a step can do when it answers a next state. -/

namespace Sys2Proof.Machine

open Sys2Proof

/-- SETVL puts a grant of `1 .. min(rem, vlim)` into `vl`, for some draw, and goes on to VLDA. -/
theorem exec_setvl_eq (s : State) : ∃ ds k,
    exec .setvl s = .next (((s.withEnv { s.env with draws := ds, freeCount := k }).withWork
      { s.work with
        vl := cutCount s.cfg (grantOf s.takeDraw.1 (min s.work.rem.toNat s.work.vlim.toNat)) }).withUpc 0x3) := by
  obtain ⟨ds, k, h⟩ := takeDraw_spec s
  refine ⟨ds, k, ?_⟩
  simp only [exec, execSetvl]
  rw [h]

/-- VLDA loads where its addresses are admitted, and only there. -/
theorem exec_vlda_next {s t : State} (h : exec .vlda s = .next t) :
    elemsAdmitted s.cfg engineReads s.work.pa s.activeLanes = true ∧
    t = (s.updateLanes fun i l => { l with va := Memory.elem s.cfg s.mem s.work.pa i }).withUpc 0x4 := by
  simp only [exec, execVlda] at h
  split at h
  · exact ⟨by assumption, (Host.Outcome.next.inj h).symm⟩
  · cases h

/-- VLDB loads where its addresses are admitted, and only there. -/
theorem exec_vldb_next {s t : State} (h : exec .vldb s = .next t) :
    elemsAdmitted s.cfg engineReads s.work.pb s.activeLanes = true ∧
    t = (s.updateLanes fun i l => { l with vb := Memory.elem s.cfg s.mem s.work.pb i }).withUpc 0x5 := by
  simp only [exec, execVldb] at h
  split at h
  · exact ⟨by assumption, (Host.Outcome.next.inj h).symm⟩
  · cases h

/-- VSTY stores where its addresses are admitted, and only there. -/
theorem exec_vsty_next {s t : State} (h : exec .vsty s = .next t) :
    elemsAdmitted s.cfg engineWrites s.work.py s.activeLanes = true ∧
    t = (s.withMem (Memory.storeElems s.cfg s.work.py 0
      ((s.lanes.take s.work.vl.toNat).map Lane.vy) s.mem)).withUpc 0x9 := by
  simp only [exec, execVsty] at h
  split at h
  · exact ⟨by assumption, (Host.Outcome.next.inj h).symm⟩
  · cases h

/-- CHKN ends the run or goes on. -/
theorem exec_chkn_next {s t : State} (h : exec .chkn s = .next t) :
    (s.work.rem = 0 ∧ t = (s.withDone true).withUpc 0x0) ∨ (s.work.rem ≠ 0 ∧ t = s.withUpc 0x2) := by
  simp only [exec, execChkn] at h
  split at h
  · exact .inl ⟨by assumption, (Host.Outcome.next.inj h).symm⟩
  · exact .inr ⟨by assumption, (Host.Outcome.next.inj h).symm⟩

/-- A START that answers a next state was dropped by a busy engine, or began a run that keeps the preconditions. -/
theorem startRun_next {vec : Bool} {s t : State} (h : startRun vec s = .next t) :
    (s.busy = true ∧ t = s) ∨
    (s.busy = false ∧ launchRefusal s.cfg s.launchArgs = none ∧ t = s.launched vec) := by
  unfold startRun at h
  split at h
  · exact .inl ⟨by assumption, (Host.Outcome.next.inj h).symm⟩
  · split at h
    · cases h
    · exact .inr ⟨by simp_all, by assumption, (Host.Outcome.next.inj h).symm⟩

/-- A host command that answers a next state began a run, changed at most the argument registers, or returned a
register to the host. -/
theorem exec_host_next {w : HostWord} {s t : State} (h : exec (decodeHost w) s = .next t) :
    (∃ vec, startRun vec s = .next t) ∨ (∃ r d, t = s.storeCReg d r) ∨ (∃ r, t = s.returnToHost (s.readCReg r)) := by
  unfold decodeHost at h
  split at h
  · exact .inl ⟨_, h⟩
  · split at h
    · exact .inl ⟨_, h⟩
    · split at h
      · simp only [exec, execWr] at h
        split at h
        · exact .inl ⟨_, h⟩
        · exact .inr (.inl ⟨_, _, (Host.Outcome.next.inj h).symm⟩)
      · exact .inr (.inr ⟨_, (Host.Outcome.next.inj h).symm⟩)

/-- A write of a register that stores what it is given changes only the argument registers. -/
theorem storeCReg_spec (s : State) (d : Word) (r : CReg) : ∃ c, s.storeCReg d r = s.withCmd c := by
  cases r
  case ctrl => exact ⟨s.cmd, rfl⟩
  case status => exact ⟨s.cmd, rfl⟩
  case cap => exact ⟨s.cmd, rfl⟩
  all_goals exact ⟨_, rfl⟩

/-- The engine's own step: nothing where it is idle, else the micro-operation whose code is in `upc`. -/
theorem engine_next {s t : State} (h : runFetched (fetchEngine s) = .next t) :
    (s.upc = 0 ∧ t = s) ∨ (∃ i, encode i = .m4 s.upc ∧ exec i s = .next t) := by
  unfold fetchEngine at h
  rw [decode_m4] at h
  split at h
  · rename_i i hi
    exact .inr ⟨i, decodeUop_eq_ok hi, h⟩
  · rename_i hi
    refine .inl ⟨?_, (Host.Outcome.next.inj h).symm⟩
    have key : ∀ c : UopCode, (decodeUop c == .error .idle → c = 0) := by decide
    exact key s.upc (by rw [hi]; rfl)
  · cases h

/-- The engine's step at a code runs the micro-operation of that code. -/
theorem fetchEngine_of_code {s : State} {i : Instr} {c : UopCode} (hc : s.upc = c) (hi : decodeUop c = .ok i) :
    fetchEngine s = .run i s := by
  unfold fetchEngine
  rw [decode_m4, hc, hi]

/-- A host's write of memory changes one byte, outside the buffers of a run in progress. -/
theorem hostStore_next {a : Word} {v : Byte} {s t : State} (h : hostStore a v s = .next t) :
    admits s.cfg hostReaches a.toNat = true ∧ s.inRunBuffers a.toNat = false ∧
    t = s.withMem (Memory.write s.mem a.toNat v) := by
  unfold hostStore at h
  split at h
  · cases h
  · split at h
    · cases h
    · exact ⟨by simp_all, by simp_all, (Host.Outcome.next.inj h).symm⟩

/-- A host's read of memory changes only the model's own fields. -/
theorem hostLoad_next {a : Word} {s t : State} (h : hostLoad a s = .next t) :
    ∃ k v, t = (s.withEnv { s.env with freeCount := k }).returnToHost v := by
  unfold hostLoad at h
  split at h
  · cases h
  · split at h
    · exact ⟨_, _, (Host.Outcome.next.inj h).symm⟩
    · exact ⟨s.env.freeCount, _, (Host.Outcome.next.inj h).symm⟩

/-- Everything a step can be: the engine's step, a host access, a host write or read of memory, or the reset input,
each in the state whose schedule has moved on. -/
theorem step_next {s t : State} (h : step s = .next t) : ∃ rest,
    runFetched (fetchEngine (s.withSchedule rest)) = .next t ∨
    (∃ w, exec (decodeHost w) (s.withSchedule rest) = .next t) ∨
    (∃ a v, hostStore a v (s.withSchedule rest) = .next t) ∨
    (∃ a, hostLoad a (s.withSchedule rest) = .next t) ∨
    t = applyReset (s.withSchedule rest) := by
  unfold step fetch at h
  split at h
  · exact ⟨s.env.schedule, .inl h⟩
  · exact ⟨_, .inl h⟩
  · exact ⟨_, .inr (.inl ⟨_, h⟩)⟩
  · exact ⟨_, .inr (.inr (.inl ⟨_, _, h⟩))⟩
  · exact ⟨_, .inr (.inr (.inr (.inl ⟨_, h⟩)))⟩
  · exact ⟨_, .inr (.inr (.inr (.inr (Host.Outcome.next.inj h).symm)))⟩

end Sys2Proof.Machine
end

