-- ==== Sys2Proof/Laws/Memory.lean ====
section
/-! SUPPORT. Memory: a read after a write, the canonical form, and what a store of elements leaves. -/

namespace Sys2Proof.Machine

open Sys2Proof

namespace Memory

/-! ## One byte -/

@[simp] theorem read_nil (a : Nat) : read [] a = fill := rfl

/-- An address below every listed one reads as the fill. -/
theorem read_of_lt {m : Memory} {a : Nat} (h : ∀ p ∈ m, a < p.1) : read m a = fill := by
  induction m with
  | nil => rfl
  | cons p m ih =>
    obtain ⟨k, b⟩ := p
    have hk : a < k := h (k, b) (by simp)
    simp only [read]
    rw [if_neg (by omega)]
    exact ih fun q hq => h q (List.mem_cons_of_mem _ hq)

/-- A byte reads as written, and every other address reads as before, whatever the list's form is above the address:
the list need only be rising. -/
theorem read_write {m : Memory} (hm : m.Pairwise fun p q => p.1 < q.1) (a : Nat) (v : Byte) (x : Nat) :
    read (write m a v) x = if x = a then v else read m x := by
  induction m with
  | nil =>
    by_cases hv : v = fill
    · by_cases hx : x = a <;> simp [write, hv, hx]
    · by_cases hx : x = a
      · simp [write, hv, read, hx]
      · simp [write, hv, read, hx, Ne.symm hx]
  | cons p m ih =>
    obtain ⟨k, b⟩ := p
    rw [List.pairwise_cons] at hm
    have hm1 : ∀ q ∈ m, k < q.1 := fun q hq => hm.1 q hq
    by_cases h1 : a < k
    · have ha : read ((k, b) :: m) a = fill :=
        read_of_lt fun q hq => by
          rcases List.mem_cons.1 hq with rfl | hq
          · exact h1
          · exact Nat.lt_trans h1 (hm1 q hq)
      by_cases hv : v = fill
      · by_cases hx : x = a
        · subst hx; simp [write, h1, hv, ha]
        · simp [write, h1, hv, hx]
      · by_cases hx : x = a
        · subst hx; simp [write, h1, hv, read]
        · simp [write, h1, hv, read, hx, Ne.symm hx]
    · by_cases h2 : a = k
      · subst h2
        have ha : read m a = fill := read_of_lt hm1
        by_cases hv : v = fill
        · by_cases hx : x = a
          · subst hx; simp [write, hv, ha]
          · simp [write, hv, read, hx, Ne.symm hx]
        · by_cases hx : x = a
          · subst hx; simp [write, hv, read]
          · simp [write, hv, read, hx, Ne.symm hx]
      · by_cases hx : k = x
        · subst hx
          have : ¬ k = a := fun h => h2 h.symm
          simp [write, h1, h2, read, this]
        · simp only [write, h1, h2, if_false, read, hx]
          exact ih hm.2

/-- A listed address of a write is the written one or was listed. -/
theorem mem_write {m : Memory} {a : Nat} {v : Byte} {p : Host.Cell} (h : p ∈ write m a v) :
    (p = (a, v) ∧ v ≠ fill) ∨ p ∈ m := by
  induction m with
  | nil =>
    by_cases hv : v = fill <;> simp_all [write]
  | cons q m ih =>
    obtain ⟨k, b⟩ := q
    simp only [write] at h
    split at h
    · split at h
      · exact .inr h
      · rcases List.mem_cons.1 h with rfl | h
        · exact .inl ⟨rfl, by assumption⟩
        · exact .inr h
    · split at h
      · split at h
        · exact .inr (List.mem_cons_of_mem _ h)
        · rcases List.mem_cons.1 h with rfl | h
          · exact .inl ⟨rfl, by assumption⟩
          · exact .inr (List.mem_cons_of_mem _ h)
      · rcases List.mem_cons.1 h with rfl | h
        · exact .inr (by simp)
        · exact (ih h).imp id (List.mem_cons_of_mem _)

/-- A write keeps the canonical form. -/
theorem write_wf {m : Memory} (hm : wf m) (a : Nat) (v : Byte) : wf (write m a v) := by
  refine ⟨?_, fun p hp => ?_⟩
  · obtain ⟨hm, -⟩ := hm
    induction m with
    | nil => by_cases hv : v = fill <;> simp [write, hv]
    | cons p m ih =>
      obtain ⟨k, b⟩ := p
      have hm' := List.pairwise_cons.1 hm
      simp only [write]
      split
      · rename_i hlt
        split
        · exact hm
        · refine List.pairwise_cons.2 ⟨fun q hq => ?_, hm⟩
          rcases List.mem_cons.1 hq with rfl | hq
          · exact hlt
          · exact Nat.lt_trans hlt (hm'.1 q hq)
      · split
        · rename_i heq
          split
          · exact hm'.2
          · exact List.pairwise_cons.2 ⟨fun q hq => by simpa [heq] using hm'.1 q hq, hm'.2⟩
        · refine List.pairwise_cons.2 ⟨fun q hq => ?_, ih hm'.2⟩
          rcases mem_write hq with ⟨rfl, -⟩ | hq
          · simp only; omega
          · exact hm'.1 q hq
  · rcases mem_write hp with ⟨rfl, hv⟩ | hp
    · exact hv
    · exact hm.2 p hp

/-- A write inside the address space keeps memory inside it. -/
theorem write_space {m : Memory} {n : Nat} (hm : ∀ p ∈ m, p.1 < n) {a : Nat} (ha : a < n) (v : Byte) :
    ∀ p ∈ write m a v, p.1 < n := by
  intro p hp
  rcases mem_write hp with ⟨rfl, -⟩ | hp
  · exact ha
  · exact hm p hp

/-- Reading a listed address gives what the list says. -/
theorem read_of_mem {m : Memory} (hm : m.Pairwise fun p q => p.1 < q.1) {k : Nat} {b : Byte} (h : (k, b) ∈ m) :
    read m k = b := by
  induction m with
  | nil => simp at h
  | cons p m ih =>
    obtain ⟨k', b'⟩ := p
    have hm' := List.pairwise_cons.1 hm
    rcases List.mem_cons.1 h with h | h
    · obtain ⟨rfl, rfl⟩ := Prod.mk.injEq _ _ _ _ ▸ h
      simp [read]
    · have : k' ≠ k := Nat.ne_of_lt (hm'.1 _ h)
      simp only [read, if_neg this]
      exact ih hm'.2 h

/-- Two canonical memories that read alike at every address are the same list. -/
theorem ext {m n : Memory} (hm : wf m) (hn : wf n) (h : ∀ a, read m a = read n a) : m = n := by
  induction m generalizing n with
  | nil =>
    cases n with
    | nil => rfl
    | cons q n =>
      obtain ⟨k, b⟩ := q
      have := h k
      simp only [read, if_true] at this
      exact absurd this.symm (hn.2 (k, b) (by simp))
  | cons p m ih =>
    obtain ⟨k, b⟩ := p
    obtain ⟨hm1, hm2⟩ := hm
    have hm1' := List.pairwise_cons.1 hm1
    cases n with
    | nil =>
      have := h k
      simp only [read, if_true] at this
      exact absurd this (hm2 (k, b) (by simp))
    | cons q n =>
      obtain ⟨k', b'⟩ := q
      obtain ⟨hn1, hn2⟩ := hn
      have hn1' := List.pairwise_cons.1 hn1
      have hk : k = k' := by
        rcases Nat.lt_trichotomy k k' with hlt | heq | hgt
        · have h1 := h k
          rw [show read ((k', b') :: n) k = fill from read_of_lt fun q hq => by
            rcases List.mem_cons.1 hq with rfl | hq
            · exact hlt
            · exact Nat.lt_trans hlt (hn1'.1 q hq)] at h1
          simp only [read, if_true] at h1
          exact absurd h1 (hm2 (k, b) (by simp))
        · exact heq
        · have h1 := h k'
          rw [show read ((k, b) :: m) k' = fill from read_of_lt fun q hq => by
            rcases List.mem_cons.1 hq with rfl | hq
            · exact hgt
            · exact Nat.lt_trans hgt (hm1'.1 q hq)] at h1
          simp only [read, if_true] at h1
          exact absurd h1.symm (hn2 (k', b') (by simp))
      subst hk
      have hb : b = b' := by simpa [read] using h k
      subst hb
      congr 1
      refine ih ⟨hm1'.2, fun q hq => hm2 q (List.mem_cons_of_mem _ hq)⟩
        ⟨hn1'.2, fun q hq => hn2 q (List.mem_cons_of_mem _ hq)⟩ fun a => ?_
      by_cases ha : k = a
      · subst ha
        rw [read_of_lt hm1'.1, read_of_lt hn1'.1]
      · simpa [read, ha] using h a

/-! ## One 16-bit access -/

/-- A 16-bit store changes its two bytes and no other. -/
theorem read_write16 {c : Config} {m : Memory} (hm : wf m) (a : Nat) (v : Q15) (x : Nat) :
    read (write16 c m a v) x =
      if x = secondByte c a then v.extractLsb' 8 8 else if x = a then v.extractLsb' 0 8 else read m x := by
  rw [write16, read_write (write_wf hm _ _).1, read_write hm.1]

theorem write16_wf {c : Config} {m : Memory} (hm : wf m) (a : Nat) (v : Q15) : wf (write16 c m a v) :=
  write_wf (write_wf hm _ _) _ _

theorem elemAddr_lt (c : Config) (p : Word) (i : Nat) : elemAddr c p i < 2 ^ c.aw := Nat.mod_lt _ (Nat.two_pow_pos _)

theorem secondByte_lt (c : Config) (a : Nat) : secondByte c a < 2 ^ c.aw := Nat.mod_lt _ (Nat.two_pow_pos _)

theorem write16_space {c : Config} {m : Memory} (hm : ∀ p ∈ m, p.1 < 2 ^ c.aw) {a : Nat} (ha : a < 2 ^ c.aw) (v : Q15) :
    ∀ p ∈ write16 c m a v, p.1 < 2 ^ c.aw :=
  write_space (write_space hm ha _) (secondByte_lt c a) _

/-- The two halves of a pattern put together are the pattern. -/
theorem halves (v : Q15) : v.extractLsb' 8 8 ++ v.extractLsb' 0 8 = v := by
  ext i hi
  simp only [BitVec.getElem_append, BitVec.getElem_extractLsb']
  split
  · simp [← BitVec.getLsbD_eq_getElem]
  · rw [show 8 + (i - 8) = i by omega, ← BitVec.getLsbD_eq_getElem]

/-! ## A store of elements -/

theorem storeElems_wf {c : Config} {p : Word} {vs : List Q15} {i : Nat} {m : Memory} (hm : wf m) :
    wf (storeElems c p i vs m) := by
  induction vs generalizing i m with
  | nil => exact hm
  | cons v vs ih => exact ih (write16_wf hm _ _)

theorem storeElems_space {c : Config} {p : Word} {vs : List Q15} {i : Nat} {m : Memory}
    (hm : ∀ q ∈ m, q.1 < 2 ^ c.aw) : ∀ q ∈ storeElems c p i vs m, q.1 < 2 ^ c.aw := by
  induction vs generalizing i m with
  | nil => exact hm
  | cons v vs ih => exact ih (write16_space hm (elemAddr_lt c p i) v)

/-- A store of elements changes no byte but those of its elements. -/
theorem read_storeElems_of_ne {c : Config} {p : Word} {vs : List Q15} {i : Nat} {m : Memory} (hm : wf m) {x : Nat}
    (hx : ∀ j, i ≤ j → j < i + vs.length → x ≠ elemAddr c p j ∧ x ≠ secondByte c (elemAddr c p j)) :
    read (storeElems c p i vs m) x = read m x := by
  induction vs generalizing i m with
  | nil => rfl
  | cons v vs ih =>
    have h0 := hx i (Nat.le_refl _) (by simp)
    rw [storeElems, ih (write16_wf hm _ _), read_write16 hm, if_neg h0.2, if_neg h0.1]
    intro j hj hj'
    exact hx j (by omega) (by simp only [List.length_cons]; omega)

/-- Where the elements do not run past the top of the address space, each of them holds the value stored to it. -/
theorem read_storeElems {c : Config} {p : Word} {vs : List Q15} {i : Nat} {m : Memory} (hm : wf m)
    (hp : p.toNat + 2 * (i + vs.length) ≤ 2 ^ c.aw) {j : Nat} (hj : j < vs.length) :
    read (storeElems c p i vs m) (p.toNat + 2 * (i + j)) = vs[j].extractLsb' 0 8 ∧
    read (storeElems c p i vs m) (p.toNat + 2 * (i + j) + 1) = vs[j].extractLsb' 8 8 := by
  induction vs generalizing i m j with
  | nil => simp at hj
  | cons v vs ih =>
    simp only [List.length_cons] at hp hj
    have e : ∀ k, k ≤ vs.length → elemAddr c p (i + k) = p.toNat + 2 * (i + k) ∧
        secondByte c (elemAddr c p (i + k)) = p.toNat + 2 * (i + k) + 1 := fun k hk => by
      have h1 : elemAddr c p (i + k) = p.toNat + 2 * (i + k) := Nat.mod_eq_of_lt (by omega)
      exact ⟨h1, by rw [h1]; exact Nat.mod_eq_of_lt (by omega)⟩
    cases j with
    | zero =>
      have e0 := e 0 (by omega)
      simp only [Nat.add_zero] at e0 ⊢
      have hne : ∀ x, x = p.toNat + 2 * i ∨ x = p.toNat + 2 * i + 1 →
          ∀ k, i + 1 ≤ k → k < i + 1 + vs.length →
            x ≠ elemAddr c p k ∧ x ≠ secondByte c (elemAddr c p k) := by
        intro x hx k hk hk'
        obtain ⟨d, rfl⟩ : ∃ d, k = i + d := ⟨k - i, by omega⟩
        have ek := e d (by omega)
        rw [ek.2, ek.1]
        omega
      simp only [storeElems, List.getElem_cons_zero]
      rw [read_storeElems_of_ne (write16_wf hm _ _) (hne _ (.inl rfl)),
        read_storeElems_of_ne (write16_wf hm _ _) (hne _ (.inr rfl)), read_write16 hm, read_write16 hm, e0.2, e0.1]
      simp
    | succ j =>
      have h := ih (i := i + 1) (m := write16 c m (elemAddr c p i) v) (j := j) (write16_wf hm _ _) (by omega) (by omega)
      simp only [storeElems, List.getElem_cons_succ]
      rwa [show i + 1 + j = i + (j + 1) by omega] at h

/-- Without a wrap, an element is its two bytes, low byte first. -/
theorem elem_eq {c : Config} {m : Memory} {p : Word} {i : Nat} (h : p.toNat + 2 * i + 1 < 2 ^ c.aw) :
    elem c m p i = read m (p.toNat + 2 * i + 1) ++ read m (p.toNat + 2 * i) := by
  have h1 : elemAddr c p i = p.toNat + 2 * i := Nat.mod_eq_of_lt (by omega)
  have h2 : secondByte c (elemAddr c p i) = p.toNat + 2 * i + 1 := by rw [h1]; exact Nat.mod_eq_of_lt h
  rw [elem, read16, h2, h1]

end Memory

end Sys2Proof.Machine
end

