-- ==== Sys2Proof/Laws/MemoryMap.lean ====
section
/-! SUPPORT. The memory map: what a covered interval says of each address, and what an accepted launch says of each
element. -/

namespace Sys2Proof.Machine

open Sys2Proof

/-- Every address of a covered interval is in a region of an accepted kind. -/
theorem coveredBy_sound {ok : RegionKind → Bool} {rs : List Region} {lo hi a : Nat} (h : coveredBy ok rs lo hi = true)
    (h1 : lo ≤ a) (h2 : a < hi) : (rs.any fun r => ok r.kind && regionHolds r a) = true := by
  induction rs generalizing lo with
  | nil => simp [coveredBy] at h; omega
  | cons r rs ih =>
    rw [coveredBy, if_neg (by omega)] at h
    rw [List.any_cons, Bool.or_eq_true]
    split at h
    · rename_i hr
      rw [Bool.and_eq_true] at hr
      by_cases ha : a < r.base + r.size
      · left
        have := hr.2
        simp only [regionHolds, Bool.and_eq_true, decide_eq_true_eq] at this ⊢
        exact ⟨hr.1, by omega, ha⟩
      · exact .inr (ih h (by omega))
    · exact .inr (ih h h1)

/-- In a rising memory map, an interval whose every address is in a region of an accepted kind is covered. -/
theorem coveredBy_complete {ok : RegionKind → Bool} {rs : List Region} {lo hi : Nat}
    (hrs : rs.Pairwise fun r q => r.base + r.size ≤ q.base)
    (h : ∀ a, lo ≤ a → a < hi → (rs.any fun r => ok r.kind && regionHolds r a) = true) :
    coveredBy ok rs lo hi = true := by
  induction rs generalizing lo with
  | nil =>
    by_cases hlo : hi ≤ lo
    · simp [coveredBy, hlo]
    · exact absurd (h lo (Nat.le_refl _) (by omega)) (by simp)
  | cons r rs ih =>
    rw [List.pairwise_cons] at hrs
    rw [coveredBy]
    split
    · rfl
    · rename_i hlo
      split
      · rename_i hr
        refine ih hrs.2 fun a ha ha' => ?_
        rw [Bool.and_eq_true] at hr
        have h0 := hr.2
        simp only [regionHolds, Bool.and_eq_true, decide_eq_true_eq] at h0
        have := h a (by omega) ha'
        rw [List.any_cons, Bool.or_eq_true] at this
        rcases this with h1 | h1
        · simp only [regionHolds, Bool.and_eq_true, decide_eq_true_eq] at h1
          omega
        · exact h1
      · rename_i hr
        -- some later region holds `lo`, so this one ends at or below it
        have hlo' := h lo (Nat.le_refl _) (by omega)
        rw [List.any_cons, Bool.or_eq_true] at hlo'
        have hbelow : r.base + r.size ≤ lo := by
          rcases hlo' with h1 | h1
          · exact absurd h1 hr
          · obtain ⟨q, hq, hq'⟩ := List.any_eq_true.1 h1
            simp only [regionHolds, Bool.and_eq_true, decide_eq_true_eq] at hq'
            exact Nat.le_trans (hrs.1 q hq) hq'.2.1
        refine ih hrs.2 fun a ha ha' => ?_
        have := h a ha ha'
        rw [List.any_cons, Bool.or_eq_true] at this
        rcases this with h1 | h1
        · simp only [regionHolds, Bool.and_eq_true, decide_eq_true_eq] at h1
          omega
        · exact h1

/-- Both bytes of every element of an admitted buffer are admitted. -/
theorem bufferAdmitted_elem {c : Config} {ok : RegionKind → Bool} {base n : Word}
    (h : bufferAdmitted c ok base n = true) {a : Nat} (ha : base.toNat ≤ a) (ha' : a < base.toNat + 2 * n.toNat) :
    admits c ok a = true := by
  simp only [bufferAdmitted, Bool.and_eq_true, decide_eq_true_eq] at h
  simp only [bufferEnd] at h
  simp only [admits, Bool.and_eq_true, decide_eq_true_eq]
  exact ⟨by omega, coveredBy_sound h.2 ha ha'⟩

/-- What an accepted launch of at least one element says (spec/20_memory.md R65 to R67). -/
structure LaunchOk (c : Config) (l : Launch) : Prop where
  aAdmitted : bufferAdmitted c engineReads l.aBase l.n = true
  bAdmitted : bufferAdmitted c engineReads l.bBase l.n = true
  yAdmitted : bufferAdmitted c engineWrites l.yBase l.n = true
  aliasA : partialOverlap l.yBase l.aBase l.n = false
  aliasB : partialOverlap l.yBase l.bBase l.n = false

theorem launchOk_of_none {c : Config} {l : Launch} (h : launchRefusal c l = none) (hn : l.n ≠ 0) : LaunchOk c l := by
  unfold launchRefusal at h
  rw [if_neg hn] at h
  split at h
  · cases h
  · split at h
    · cases h
    · split at h
      · cases h
      · rename_i h2 h3
        simp only [Bool.not_eq_true, Bool.not_eq_false', Bool.and_eq_true] at h2
        simp only [Bool.not_eq_true, Bool.or_eq_false_iff] at h3
        exact ⟨h2.1.1, h2.1.2, h2.2, h3.1, h3.2⟩

/-- An admitted buffer does not run past the top of the address space. -/
theorem bufferAdmitted_end {c : Config} {ok : RegionKind → Bool} {base n : Word} (h : bufferAdmitted c ok base n = true) :
    base.toNat + 2 * n.toNat ≤ 2 ^ c.aw := by
  simp only [bufferAdmitted, Bool.and_eq_true, decide_eq_true_eq] at h
  exact h.1

/-- Two buffers that do not overlap partially are the same or apart (spec/20_memory.md R66). -/
theorem not_partialOverlap {y x n : Word} (h : partialOverlap y x n = false) :
    y = x ∨ y.toNat + 2 * n.toNat ≤ x.toNat ∨ x.toNat + 2 * n.toNat ≤ y.toNat := by
  simp only [partialOverlap, Bool.and_eq_false_iff, bne_eq_false_iff_eq, decide_eq_false_iff_not] at h
  simp only [bufferEnd] at h
  rcases h with (h | h) | h
  · exact .inl h
  · exact .inr (.inr (by omega))
  · exact .inr (.inl (by omega))

/-- The active elements at a pointer into an admitted buffer are admitted. -/
theorem elemsAdmitted_of_buffer {c : Config} {ok : RegionKind → Bool} {base n p : Word} {k j : Nat}
    (h : bufferAdmitted c ok base n = true) (hp : p.toNat = base.toNat + 2 * k) (hk : k + j ≤ n.toNat) :
    elemsAdmitted c ok p j = true := by
  have he := bufferAdmitted_end h
  rw [elemsAdmitted, List.all_eq_true]
  intro i hi
  rw [List.mem_range] at hi
  have h1 : elemAddr c p i = base.toNat + 2 * (k + i) := by
    rw [elemAddr, Nat.mod_eq_of_lt] <;> omega
  have h2 : secondByte c (elemAddr c p i) = base.toNat + 2 * (k + i) + 1 := by
    rw [h1]; exact Nat.mod_eq_of_lt (by omega)
  rw [Bool.and_eq_true, h2, h1]
  exact ⟨bufferAdmitted_elem h (by omega) (by omega), bufferAdmitted_elem h (by omega) (by omega)⟩

end Sys2Proof.Machine
end

