-- ==== Sys2Proof/Laws/PerInstr.lean ====
section
/-! SUPPORT. What holds of every instruction as syntax, one lemma per constructor. -/

namespace Sys2Proof.Laws.Format

open Sys2Proof Sys2Proof.Machine

/-- An instruction has the format of its kind: a micro-operation is a code from 0x1 to 0x9 (spec/30_encoding.md R92),
every other instruction a host word whose bit 35 is clear for RD alone (R95). -/
def Statement (i : Instr) : Prop :=
  if isUop i then ∃ c, encode i = .m4 c ∧ 1 ≤ c.toNat ∧ c.toNat ≤ 9
  else ∃ w, encode i = .h36 w ∧ (w.we = false ↔ ∃ r g, i = .rd r g)

theorem chkn : Statement .chkn := ⟨0x1, rfl, by decide, by decide⟩
theorem setvl : Statement .setvl := ⟨0x2, rfl, by decide, by decide⟩
theorem vlda : Statement .vlda := ⟨0x3, rfl, by decide, by decide⟩
theorem vldb : Statement .vldb := ⟨0x4, rfl, by decide, by decide⟩
theorem vwmul : Statement .vwmul := ⟨0x5, rfl, by decide, by decide⟩
theorem vwadd : Statement .vwadd := ⟨0x6, rfl, by decide, by decide⟩
theorem vnsat : Statement .vnsat := ⟨0x7, rfl, by decide, by decide⟩
theorem vsty : Statement .vsty := ⟨0x8, rfl, by decide, by decide⟩
theorem adv : Statement .adv := ⟨0x9, rfl, by decide, by decide⟩
theorem startS (ignored : BitVec 30) : Statement (.startS ignored) := ⟨_, rfl, by simp⟩
theorem startV (ignored : BitVec 30) : Statement (.startV ignored) := ⟨_, rfl, by simp⟩
theorem wr (reg : CReg) (data : Word) : Statement (.wr reg data) := ⟨_, rfl, by simp⟩
theorem rd (reg : CReg) (ignored : Word) : Statement (.rd reg ignored) := ⟨_, rfl, by simp⟩

end Sys2Proof.Laws.Format
end

