-- ==== Sys2Proof/Laws/Run.lean ====
section
/-! SUPPORT. A run in progress, micro-operation by micro-operation: the facts of a run, and what the lanes and memory
hold in terms of the memory at its START. -/

namespace Sys2Proof.Machine

open Sys2Proof

/-! ## The engine's move -/

/-- Where the engine moves next, a step is the engine's step in the state whose schedule has moved on. -/
theorem fetch_engine {s : State} (h : s.engineMovesNext) : fetch s = fetchEngine (s.withSchedule s.scheduleAfter) := by
  unfold State.scheduleAfter
  rcases h with h | ⟨rest, h⟩
  · rw [show s.env.schedule.tail = s.env.schedule by rw [h]; rfl, State.withSchedule_self, fetch, h]
  · rw [fetch, h]
    rfl

/-- The two spellings of "the group's addresses are admitted". -/
theorem groupAdmitted_iff {c : Config} {ok : RegionKind → Bool} {p : Word} {k : Nat} :
    GroupAdmitted c ok p k ↔ elemsAdmitted c ok p k = true := by
  simp [GroupAdmitted, elemsAdmitted]

/-! ## The facts of a run, kept by each micro-operation -/

/-- How many elements the passes already advanced past have covered (spec/42_engine.md R173). -/
def State.finished (s : State) : Nat := s.env.launch.n.toNat - s.work.rem.toNat

/-- An accepted START begins a run with its facts (spec/42_engine.md R171). -/
theorem runInv_launched {s : State} (h : s.Inv) (hl : launchRefusal s.cfg s.launchArgs = none) (vec : Bool) :
    (s.launched vec).RunInv := by
  have hv := vlimOf_range (configOk_of_wf h.cfg_wf) vec
  have hp : ∀ b : Word, BaseOk s.cfg b → b.toNat = pointerAt s.cfg b (s.cmd.n.toNat - s.cmd.n.toNat) := fun b hb => by
    rw [pointerAt, Nat.sub_self, Nat.mul_zero, Nat.add_zero, Nat.mod_eq_of_lt hb.1]
  exact ⟨hl, h.aBase_ok, h.bBase_ok, h.yBase_ok, Nat.le_refl _, hv.1, hv.2.1, hp _ h.aBase_ok, hp _ h.bBase_ok,
    hp _ h.yBase_ok, fun hu => by simp [State.launched] at hu, fun hu => by simp [State.launched] at hu⟩

/-- Past CHKN the launch had an element, so its preconditions held. -/
theorem runInv_launchOk {s : State} (h : s.RunInv) (hr : 1 ≤ s.work.rem.toNat) : LaunchOk s.cfg s.env.launch :=
  launchOk_of_none h.launch_ok fun h0 => by
    have := h.rem_le
    rw [h0] at this
    simp at this
    omega

/-- A pointer of a run with an element left has not wrapped. -/
theorem pointerAt_eq {c : Config} {ok : RegionKind → Bool} {base n : Word} {k : Nat}
    (h : bufferAdmitted c ok base n = true) (hk : k < n.toNat) : pointerAt c base k = base.toNat + 2 * k := by
  have := bufferAdmitted_end h
  exact Nat.mod_eq_of_lt (by omega)

/-- Moving a pointer on by a group. -/
theorem pointerAt_add (c : Config) (base : Word) (k vl : Nat) :
    (pointerAt c base k + 2 * vl) % 2 ^ c.aw = pointerAt c base (k + vl) := by
  rw [pointerAt, pointerAt, Nat.mod_add_mod]
  congr 1
  omega

/-- The active elements at a pointer of the run are admitted. -/
theorem run_elemsAdmitted {s : State} (h : s.RunInv) {ok : RegionKind → Bool} {p base : Word}
    (hr : 1 ≤ s.work.rem.toNat) (hv : s.work.vl.toNat ≤ s.work.rem.toNat)
    (hadm : bufferAdmitted s.cfg ok base s.env.launch.n = true) (hp : p.toNat = pointerAt s.cfg base s.finished) :
    elemsAdmitted s.cfg ok p s.activeLanes = true := by
  have h1 := h.rem_le
  rw [pointerAt_eq hadm (by unfold State.finished; omega)] at hp
  have : s.activeLanes ≤ s.work.vl.toNat := Nat.min_le_left _ _
  exact elemsAdmitted_of_buffer hadm hp (by unfold State.finished; omega)

/-- A lane micro-operation keeps the facts of the run: it changes no register they speak of. -/
theorem State.RunInv.of_lane {s t : State} (h : s.RunInv) (hs : 3 ≤ s.upc.toNat) (hc : t.cfg = s.cfg) (hw : t.work = s.work)
    (hl : t.env.launch = s.env.launch) : t.RunInv := by
  obtain ⟨h1, h2, h3, h4, h5, h6, h7, h8, h9, h10, h11, h12⟩ := h
  refine ⟨?_, ?_, ?_, ?_, ?_, ?_, ?_, ?_, ?_, ?_, fun _ => ?_, fun _ => ?_⟩ <;> simp only [hc, hw, hl]
  all_goals first | assumption | exact h11 (by omega) | exact h12 hs

theorem run_chkn {s : State} (h : s.RunInv) :
    ∃ t, exec .chkn s = .next t ∧ (t.busy = true → t.RunInv) := by
  obtain ⟨h1, h2, h3, h4, h5, h6, h7, h8, h9, h10, -, -⟩ := h
  simp only [exec, execChkn]
  split
  · exact ⟨_, rfl, fun hb => absurd rfl ((State.busy_iff _).1 hb)⟩
  · rename_i hr
    have : s.work.rem.toNat ≠ 0 := fun h0 => hr (BitVec.eq_of_toNat_eq h0)
    exact ⟨_, rfl, fun _ => ⟨h1, h2, h3, h4, h5, h6, h7, h8, h9, h10,
      fun _ => by simp only [State.withUpc_work]; omega, fun hg => by simp at hg⟩⟩

theorem run_setvl {s : State} (hi : s.Inv) (h : s.RunInv) (hu : s.upc = 2) :
    ∃ t, exec .setvl s = .next t ∧ t.RunInv := by
  obtain ⟨h1, h2, h3, h4, h5, h6, h7, h8, h9, h10, h11, -⟩ := h
  obtain ⟨ds, k, e⟩ := exec_setvl_eq s
  have hr : 1 ≤ s.work.rem.toNat := h11 (by rw [hu]; decide)
  have hg := grantOf_range s.takeDraw.1 (m := min s.work.rem.toNat s.work.vlim.toNat) (by omega)
  have hlt := hi.vlim_bits
  have hvl : (cutCount s.cfg (grantOf s.takeDraw.1 (min s.work.rem.toNat s.work.vlim.toNat))).toNat =
      grantOf s.takeDraw.1 (min s.work.rem.toNat s.work.vlim.toNat) := by
    rw [cutCount_toNat (configOk_of_wf hi.cfg_wf).cw_le]; exact Nat.mod_eq_of_lt (by omega)
  exact ⟨_, e, h1, h2, h3, h4, h5, h6, h7, h8, h9, h10, fun _ => hr, fun _ => by
    simp only [State.withUpc_work, State.withWork_work, hvl]; exact hg⟩

theorem run_vlda {s : State} (h : s.RunInv) (hu : s.upc = 3) : ∃ t, exec .vlda s = .next t ∧ t.RunInv := by
  have hg := h.group (by rw [hu]; decide)
  have hr : 1 ≤ s.work.rem.toNat := by omega
  have hadm := run_elemsAdmitted h hr (by omega) (runInv_launchOk h hr).aAdmitted h.pa_at
  simp only [exec, execVlda, if_pos hadm]
  exact ⟨_, rfl, h.of_lane (by rw [hu]; decide) rfl rfl rfl⟩

theorem run_vldb {s : State} (h : s.RunInv) (hu : s.upc = 4) : ∃ t, exec .vldb s = .next t ∧ t.RunInv := by
  have hg := h.group (by rw [hu]; decide)
  have hr : 1 ≤ s.work.rem.toNat := by omega
  have hadm := run_elemsAdmitted h hr (by omega) (runInv_launchOk h hr).bAdmitted h.pb_at
  simp only [exec, execVldb, if_pos hadm]
  exact ⟨_, rfl, h.of_lane (by rw [hu]; decide) rfl rfl rfl⟩

theorem run_vsty {s : State} (h : s.RunInv) (hu : s.upc = 8) : ∃ t, exec .vsty s = .next t ∧ t.RunInv := by
  have hg := h.group (by rw [hu]; decide)
  have hr : 1 ≤ s.work.rem.toNat := by omega
  have hadm := run_elemsAdmitted h hr (by omega) (runInv_launchOk h hr).yAdmitted h.py_at
  simp only [exec, execVsty, if_pos hadm]
  exact ⟨_, rfl, h.of_lane (by rw [hu]; decide) rfl rfl rfl⟩

/-- In a run ADV subtracts exactly. -/
theorem run_adv_rem {s : State} (hi : s.Inv) (hv : s.work.vl.toNat ≤ s.work.rem.toNat) :
    (cutCount s.cfg (remAfter s.work.rem.toNat s.work.vl.toNat)).toNat = s.work.rem.toNat - s.work.vl.toNat := by
  have hrb := hi.rem_bits
  rw [cutCount_toNat (configOk_of_wf hi.cfg_wf).cw_le, remAfter, if_pos hv]
  exact Nat.mod_eq_of_lt (by omega)

theorem run_adv {s : State} (hi : s.Inv) (h : s.RunInv) (hu : s.upc = 9) : ∃ t, exec .adv s = .next t ∧ t.RunInv := by
  have hg := h.group (by rw [hu]; decide)
  obtain ⟨h1, h2, h3, h4, h5, h6, h7, h8, h9, h10, -, -⟩ := h
  have hrem := run_adv_rem hi (by omega)
  have hp : ∀ (p base : Word), p.toNat = pointerAt s.cfg base (s.env.launch.n.toNat - s.work.rem.toNat) →
      (cutAddr s.cfg (p.toNat + 2 * s.work.vl.toNat)).toNat =
        pointerAt s.cfg base (s.env.launch.n.toNat - (s.work.rem.toNat - s.work.vl.toNat)) := fun p base hp => by
    rw [cutAddr_toNat (configOk_of_wf hi.cfg_wf).aw_le, hp, pointerAt_add]
    congr 1
    omega
  refine ⟨_, rfl, h1, h2, h3, h4, ?_, h6, h7, ?_, ?_, ?_, fun hg => by simp at hg, fun hg => by simp at hg⟩ <;>
    simp only [State.withUpc_work, State.withWork_work, hrem]
  · exact Nat.le_trans (Nat.sub_le _ _) h5
  · exact hp _ _ h8
  · exact hp _ _ h9
  · exact hp _ _ h10

/-- The nine codes a busy engine can be at. -/
theorem busy_code {s : State} (hi : s.Inv) (hb : s.busy = true) : s.upc = 1 ∨ s.upc = 2 ∨ s.upc = 3 ∨ s.upc = 4 ∨
    s.upc = 5 ∨ s.upc = 6 ∨ s.upc = 7 ∨ s.upc = 8 ∨ s.upc = 9 := by
  have key : ∀ u : UopCode, u ≠ 0 → u.toNat ≤ 9 →
      u = 1 ∨ u = 2 ∨ u = 3 ∨ u = 4 ∨ u = 5 ∨ u = 6 ∨ u = 7 ∨ u = 8 ∨ u = 9 := by decide
  exact key _ ((State.busy_iff s).1 hb) hi.upc_code

/-- No engine step of a run with its facts is refused, and the facts hold again until the run ends. -/
theorem run_engine {s : State} (hi : s.Inv) (h : s.RunInv) (hb : s.busy = true) :
    ∃ t, runFetched (fetchEngine s) = .next t ∧ (t.busy = true → t.RunInv) := by
  have lane : ∀ {t : State}, 3 ≤ s.upc.toNat → t.cfg = s.cfg → t.work = s.work → t.env.launch = s.env.launch →
      (t.busy = true → t.RunInv) := fun hs hc hw hl _ => h.of_lane hs hc hw hl
  rcases busy_code hi hb with hu | hu | hu | hu | hu | hu | hu | hu | hu
  · rw [fetchEngine_of_code hu (i := .chkn) rfl]; exact run_chkn h
  · rw [fetchEngine_of_code hu (i := .setvl) rfl]
    obtain ⟨t, e, ht⟩ := run_setvl hi h hu; exact ⟨t, e, fun _ => ht⟩
  · rw [fetchEngine_of_code hu (i := .vlda) rfl]
    obtain ⟨t, e, ht⟩ := run_vlda h hu; exact ⟨t, e, fun _ => ht⟩
  · rw [fetchEngine_of_code hu (i := .vldb) rfl]
    obtain ⟨t, e, ht⟩ := run_vldb h hu; exact ⟨t, e, fun _ => ht⟩
  · rw [fetchEngine_of_code hu (i := .vwmul) rfl]
    exact ⟨_, rfl, lane (by rw [hu]; decide) rfl rfl rfl⟩
  · rw [fetchEngine_of_code hu (i := .vwadd) rfl]
    exact ⟨_, rfl, lane (by rw [hu]; decide) rfl rfl rfl⟩
  · rw [fetchEngine_of_code hu (i := .vnsat) rfl]
    exact ⟨_, rfl, lane (by rw [hu]; decide) rfl rfl rfl⟩
  · rw [fetchEngine_of_code hu (i := .vsty) rfl]
    obtain ⟨t, e, ht⟩ := run_vsty h hu; exact ⟨t, e, fun _ => ht⟩
  · rw [fetchEngine_of_code hu (i := .adv) rfl]
    obtain ⟨t, e, ht⟩ := run_adv hi h hu; exact ⟨t, e, fun _ => ht⟩

end Sys2Proof.Machine
end

