-- ==== Sys2Proof/Laws/Progress.lean ====
section
/-! SUPPORT. What memory and the lanes of a run hold at each micro-operation, in terms of the memory at its START. -/

namespace Sys2Proof.Machine

open Sys2Proof

/-- One of the two bytes of a 16-bit value, the low one first (spec/20_memory.md R61). -/
def byteOf (v : Q15) (o : Nat) : Byte := if o = 0 then v.extractLsb' 0 8 else v.extractLsb' 8 8

/-- The result for element `i` of a launch, from the memory at its START (spec/40_arith_units.md R116). -/
def resultElem (c : Config) (m0 : Memory) (l : Launch) (alpha : Q15) (i : Nat) : Q15 :=
  mac (Memory.elem c m0 l.aBase i) alpha (Memory.elem c m0 l.bBase i)

/-- The byte at `x` once the first `k` elements of Y are stored and nothing else has changed since the START. -/
def partialByte (c : Config) (m0 : Memory) (l : Launch) (alpha : Q15) (k x : Nat) : Byte :=
  if l.yBase.toNat ≤ x ∧ x < l.yBase.toNat + 2 * k then
    byteOf (resultElem c m0 l alpha ((x - l.yBase.toNat) / 2)) ((x - l.yBase.toNat) % 2)
  else Memory.read m0 x

/-- The elements of Y in memory: those of the passes advanced past, and the group's own from VSTY to ADV. -/
def State.stored (s : State) : Nat := s.finished + if s.upc = 9 then s.work.vl.toNat else 0

theorem stored_of_ne {s : State} (h : s.upc ≠ 9) : s.stored = s.finished := by
  rw [State.stored, if_neg h, Nat.add_zero]

/-- What a run that started on the memory `m0` holds. -/
structure Progress (m0 : Memory) (alpha : Q15) (s : State) : Prop where
  alphaL : s.work.alphaL = alpha
  mem : ∀ x, Memory.read s.mem x = partialByte s.cfg m0 s.env.launch alpha s.stored x
  va : s.upc = 4 ∨ s.upc = 5 ∨ s.upc = 6 → ∀ i l, i < s.work.vl.toNat → s.lanes[i]? = some l →
    l.va = Memory.elem s.cfg m0 s.env.launch.aBase (s.finished + i)
  vb : s.upc = 5 → ∀ i l, i < s.work.vl.toNat → s.lanes[i]? = some l →
    l.vb = Memory.elem s.cfg m0 s.env.launch.bBase (s.finished + i)
  product : s.upc = 6 → ∀ i l, i < s.work.vl.toNat → s.lanes[i]? = some l →
    l.vw = qmul alpha (Memory.elem s.cfg m0 s.env.launch.bBase (s.finished + i))
  sum : s.upc = 7 → ∀ i l, i < s.work.vl.toNat → s.lanes[i]? = some l →
    l.vw = wadd (Memory.elem s.cfg m0 s.env.launch.aBase (s.finished + i))
      (qmul alpha (Memory.elem s.cfg m0 s.env.launch.bBase (s.finished + i)))
  vy : s.upc = 8 → ∀ i l, i < s.work.vl.toNat → s.lanes[i]? = some l →
    l.vy = resultElem s.cfg m0 s.env.launch alpha (s.finished + i)

/-- A run begins with nothing stored. -/
theorem progress_launched (s : State) (vec : Bool) : Progress s.mem s.cmd.alpha (s.launched vec) := by
  refine ⟨rfl, fun x => ?_, fun h => ?_, fun h => ?_, fun h => ?_, fun h => ?_, fun h => ?_⟩
  · have : (s.launched vec).stored = 0 := by simp [State.stored, State.finished, State.launched, State.launchArgs]
    rw [this, partialByte, if_neg (by omega)]
    rfl
  all_goals simp [State.launched] at h

/-- An element of an input that no pass has reached is still what it was at the START, in place or not: a pass touches
only its own index range (spec/20_memory.md R66). -/
theorem elem_unreached {c : Config} {ok : RegionKind → Bool} {m m0 : Memory} {l : Launch} {alpha : Q15} {k i : Nat}
    {base p : Word} (hm : ∀ x, Memory.read m x = partialByte c m0 l alpha k x)
    (hadm : bufferAdmitted c ok base l.n = true) (hal : partialOverlap l.yBase base l.n = false)
    (hp : p.toNat = base.toNat + 2 * k) (hk : k + i < l.n.toNat) :
    Memory.elem c m p i = Memory.elem c m0 base (k + i) := by
  have he := bufferAdmitted_end hadm
  have hkeep : ∀ x, base.toNat + 2 * k ≤ x → x < base.toNat + 2 * l.n.toNat → Memory.read m x = Memory.read m0 x := by
    intro x hx hx'
    rw [hm, partialByte, if_neg]
    rcases not_partialOverlap hal with h | h | h
    · rw [h]; omega
    · omega
    · omega
  rw [Memory.elem_eq (by omega), Memory.elem_eq (by omega), hp, hkeep _ (by omega) (by omega),
    hkeep _ (by omega) (by omega)]
  congr 2 <;> omega

/-- Storing a group extends what is stored by the group. -/
theorem partialByte_storeElems {c : Config} {ok : RegionKind → Bool} {m m0 : Memory} {l : Launch} {alpha : Q15} {k : Nat}
    {p : Word} {vs : List Q15} (hwf : Memory.wf m) (hm : ∀ x, Memory.read m x = partialByte c m0 l alpha k x)
    (hadm : bufferAdmitted c ok l.yBase l.n = true) (hp : p.toNat = l.yBase.toNat + 2 * k)
    (hk : k + vs.length ≤ l.n.toNat) (hvs : ∀ i (h : i < vs.length), vs[i] = resultElem c m0 l alpha (k + i)) (x : Nat) :
    Memory.read (Memory.storeElems c p 0 vs m) x = partialByte c m0 l alpha (k + vs.length) x := by
  have he := bufferAdmitted_end hadm
  by_cases hx : l.yBase.toNat + 2 * k ≤ x ∧ x < l.yBase.toNat + 2 * (k + vs.length)
  · obtain ⟨i, o, rfl, ho⟩ : ∃ i o, x = p.toNat + 2 * (0 + i) + o ∧ o < 2 :=
      ⟨(x - p.toNat) / 2, (x - p.toNat) % 2, by omega, Nat.mod_lt _ (by omega)⟩
    have hi : i < vs.length := by omega
    obtain ⟨hlo, hhi⟩ := Memory.read_storeElems (c := c) (p := p) (vs := vs) (i := 0) hwf (by omega) hi
    rw [partialByte, if_pos (by omega), show (p.toNat + 2 * (0 + i) + o - l.yBase.toNat) / 2 = k + i by omega,
      show (p.toNat + 2 * (0 + i) + o - l.yBase.toNat) % 2 = o by omega, ← hvs i hi]
    obtain rfl | rfl : o = 0 ∨ o = 1 := by omega
    · simpa [byteOf] using hlo
    · simpa [byteOf] using hhi
  · rw [Memory.read_storeElems_of_ne hwf, hm]
    · unfold partialByte
      by_cases h1 : l.yBase.toNat ≤ x ∧ x < l.yBase.toNat + 2 * k
      · rw [if_pos h1, if_pos (by omega)]
      · rw [if_neg h1, if_neg (by omega)]
    · intro j _ hj
      have h1 : elemAddr c p j = p.toNat + 2 * j := Nat.mod_eq_of_lt (by omega)
      have h2 : secondByte c (elemAddr c p j) = p.toNat + 2 * j + 1 := by rw [h1]; exact Nat.mod_eq_of_lt (by omega)
      omega

section
variable {m0 : Memory} {alpha : Q15} {s : State}

/-- Every lane after a micro-operation was a lane before it, changed if it is active. -/
theorem lane_after {f : Nat → Lane → Lane} {u : UopCode} {i : Nat} {l : Lane}
    (hi : i < ((s.updateLanes f).withUpc u).work.vl.toNat)
    (h : ((s.updateLanes f).withUpc u).lanes[i]? = some l) :
    ∃ l0, s.lanes[i]? = some l0 ∧ i < s.work.vl.toNat ∧ l = f i l0 := by
  have hi' : i < s.work.vl.toNat := hi
  rw [State.withUpc_lanes, State.updateLanes_lanes, mapActive_getElem?, Option.map_eq_some_iff] at h
  obtain ⟨l0, h0, h⟩ := h
  exact ⟨l0, h0, hi', by rw [← h, if_pos hi']⟩

theorem progress_chkn {t : State} (h : Progress m0 alpha s) (hu : s.upc = 1) (e : exec .chkn s = .next t) :
    Progress m0 alpha t := by
  have hst : s.stored = s.finished := by simp [State.stored, hu]
  rcases exec_chkn_next e with ⟨_, rfl⟩ | ⟨_, rfl⟩ <;>
    exact ⟨h.alphaL, fun x => (h.mem x).trans (by rw [hst]; rfl), by simp, by simp, by simp, by simp, by simp⟩

theorem progress_setvl {t : State} (h : Progress m0 alpha s) (hu : s.upc = 2) (e : exec .setvl s = .next t) :
    Progress m0 alpha t := by
  have hst : s.stored = s.finished := by simp [State.stored, hu]
  obtain ⟨ds, k, e'⟩ := exec_setvl_eq s
  rw [e'] at e
  cases e
  exact ⟨h.alphaL, fun x => (h.mem x).trans (by rw [hst]; rfl), by simp, by simp, by simp, by simp, by simp⟩

theorem progress_vlda {t : State} (h : Progress m0 alpha s) (hr : s.RunInv) (hu : s.upc = 3)
    (e : exec .vlda s = .next t) : Progress m0 alpha t := by
  have hst : s.stored = s.finished := by simp [State.stored, hu]
  have hg := hr.group (by rw [hu]; decide)
  have hle := hr.rem_le
  have hok := runInv_launchOk hr (by omega)
  obtain ⟨_, rfl⟩ := exec_vlda_next e
  refine ⟨h.alphaL, fun x => (h.mem x).trans (by rw [hst]; rfl),
    fun _ i l hi hl => ?_, by simp, by simp, by simp, by simp⟩
  obtain ⟨l0, -, hi', rfl⟩ := lane_after hi hl
  have hp := hr.pa_at
  rw [pointerAt_eq hok.aAdmitted (by omega)] at hp
  have key : Memory.elem s.cfg s.mem s.work.pa i = Memory.elem s.cfg m0 s.env.launch.aBase (s.finished + i) :=
    elem_unreached (fun x => by rw [h.mem x, hst]) hok.aAdmitted hok.aliasA hp (by unfold State.finished; omega)
  exact key

theorem progress_vldb {t : State} (h : Progress m0 alpha s) (hr : s.RunInv) (hu : s.upc = 4)
    (e : exec .vldb s = .next t) : Progress m0 alpha t := by
  have hst : s.stored = s.finished := by simp [State.stored, hu]
  have hg := hr.group (by rw [hu]; decide)
  have hle := hr.rem_le
  have hok := runInv_launchOk hr (by omega)
  obtain ⟨_, rfl⟩ := exec_vldb_next e
  refine ⟨h.alphaL, fun x => (h.mem x).trans (by rw [hst]; rfl),
    fun _ i l hi hl => ?_, fun _ i l hi hl => ?_, by simp, by simp, by simp⟩
  · obtain ⟨l0, h0, hi', rfl⟩ := lane_after hi hl
    exact h.va (.inl hu) i l0 hi' h0
  · obtain ⟨l0, -, hi', rfl⟩ := lane_after hi hl
    have hp := hr.pb_at
    rw [pointerAt_eq hok.bAdmitted (by omega)] at hp
    have key : Memory.elem s.cfg s.mem s.work.pb i = Memory.elem s.cfg m0 s.env.launch.bBase (s.finished + i) :=
      elem_unreached (fun x => by rw [h.mem x, hst]) hok.bAdmitted hok.aliasB hp (by unfold State.finished; omega)
    exact key

theorem progress_vwmul {t : State} (h : Progress m0 alpha s) (hu : s.upc = 5) (e : exec .vwmul s = .next t) :
    Progress m0 alpha t := by
  have hst : s.stored = s.finished := by simp [State.stored, hu]
  cases e
  refine ⟨h.alphaL, fun x => (h.mem x).trans (by rw [hst]; rfl),
    fun _ i l hi hl => ?_, by simp, fun _ i l hi hl => ?_, by simp, by simp⟩
  · obtain ⟨l0, h0, hi', rfl⟩ := lane_after hi hl
    exact h.va (.inr (.inl hu)) i l0 hi' h0
  · obtain ⟨l0, h0, hi', rfl⟩ := lane_after hi hl
    simp only [h.alphaL, h.vb hu i l0 hi' h0]
    rfl

theorem progress_vwadd {t : State} (h : Progress m0 alpha s) (hu : s.upc = 6) (e : exec .vwadd s = .next t) :
    Progress m0 alpha t := by
  have hst : s.stored = s.finished := by simp [State.stored, hu]
  cases e
  refine ⟨h.alphaL, fun x => (h.mem x).trans (by rw [hst]; rfl),
    by simp, by simp, by simp, fun _ i l hi hl => ?_, by simp⟩
  obtain ⟨l0, h0, hi', rfl⟩ := lane_after hi hl
  simp only [h.va (.inr (.inr hu)) i l0 hi' h0, h.product hu i l0 hi' h0]
  rfl

theorem progress_vnsat {t : State} (h : Progress m0 alpha s) (hu : s.upc = 7) (e : exec .vnsat s = .next t) :
    Progress m0 alpha t := by
  have hst : s.stored = s.finished := by simp [State.stored, hu]
  cases e
  refine ⟨h.alphaL, fun x => (h.mem x).trans (by rw [hst]; rfl),
    by simp, by simp, by simp, by simp, fun _ i l hi hl => ?_⟩
  obtain ⟨l0, h0, hi', rfl⟩ := lane_after hi hl
  simp only [h.sum hu i l0 hi' h0]
  rfl

theorem progress_vsty {t : State} (h : Progress m0 alpha s) (hi : s.Inv) (hr : s.RunInv) (hu : s.upc = 8)
    (e : exec .vsty s = .next t) : Progress m0 alpha t := by
  have hst : s.stored = s.finished := by simp [State.stored, hu]
  have hg := hr.group (by rw [hu]; decide)
  have hle := hr.rem_le
  have hvm := hr.vlim_le
  have hlen := hi.lanes_len
  have hok := runInv_launchOk hr (by omega)
  have hp := hr.py_at
  rw [pointerAt_eq hok.yAdmitted (by omega)] at hp
  obtain ⟨_, rfl⟩ := exec_vsty_next e
  have hl : ((s.lanes.take s.work.vl.toNat).map Lane.vy).length = s.work.vl.toNat := by
    rw [storedValues_length]; omega
  refine ⟨h.alphaL, fun x => ?_, by simp, by simp, by simp, by simp, by simp⟩
  have hvs : ∀ i (hi : i < ((s.lanes.take s.work.vl.toNat).map Lane.vy).length),
      ((s.lanes.take s.work.vl.toNat).map Lane.vy)[i] =
        resultElem s.cfg m0 s.env.launch alpha (s.finished + i) := fun i hi => by
    rw [storedValues_getElem hi]
    exact h.vy hu i _ (by omega) (List.getElem?_eq_getElem _)
  have := partialByte_storeElems (x := x) (k := s.finished) hi.mem_wf (fun x => (h.mem x).trans (by rw [hst]))
    hok.yAdmitted hp (by rw [hl]; unfold State.finished; omega) hvs
  rw [hl] at this
  exact this

theorem progress_adv {t : State} (h : Progress m0 alpha s) (hi : s.Inv) (hr : s.RunInv) (hu : s.upc = 9)
    (e : exec .adv s = .next t) : Progress m0 alpha t := by
  have hg := hr.group (by rw [hu]; decide)
  have hle := hr.rem_le
  have hrem := run_adv_rem hi (show s.work.vl.toNat ≤ s.work.rem.toNat by omega)
  cases e
  have hst : s.stored = s.finished + s.work.vl.toNat := by simp [State.stored, hu]
  refine ⟨h.alphaL, fun x => (h.mem x).trans ?_, by simp, by simp, by simp, by simp, by simp⟩
  congr 1
  rw [hst, stored_of_ne (by simp)]
  unfold State.finished
  rw [State.withUpc_work, State.withWork_work]
  simp only [State.withUpc_env, State.withWork_env, hrem]
  omega

end

/-- An engine step of a run keeps what the run holds. -/
theorem progress_engine {m0 : Memory} {alpha : Q15} {s t : State} (h : Progress m0 alpha s) (hi : s.Inv) (hr : s.RunInv)
    (hb : s.busy = true) (e : runFetched (fetchEngine s) = .next t) : Progress m0 alpha t := by
  rcases busy_code hi hb with hu | hu | hu | hu | hu | hu | hu | hu | hu
  · rw [fetchEngine_of_code hu (i := .chkn) rfl] at e; exact progress_chkn h hu e
  · rw [fetchEngine_of_code hu (i := .setvl) rfl] at e; exact progress_setvl h hu e
  · rw [fetchEngine_of_code hu (i := .vlda) rfl] at e; exact progress_vlda h hr hu e
  · rw [fetchEngine_of_code hu (i := .vldb) rfl] at e; exact progress_vldb h hr hu e
  · rw [fetchEngine_of_code hu (i := .vwmul) rfl] at e; exact progress_vwmul h hu e
  · rw [fetchEngine_of_code hu (i := .vwadd) rfl] at e; exact progress_vwadd h hu e
  · rw [fetchEngine_of_code hu (i := .vnsat) rfl] at e; exact progress_vnsat h hu e
  · rw [fetchEngine_of_code hu (i := .vsty) rfl] at e; exact progress_vsty h hi hr hu e
  · rw [fetchEngine_of_code hu (i := .adv) rfl] at e; exact progress_adv h hi hr hu e

end Sys2Proof.Machine
end

