-- ==== Sys2Proof/Tests/Slice0.lean ====
section
/-! SUPPORT. Tests with expected values from the encoding tables and from spec/95_test_vectors.md, and for every
statement with hypotheses a concrete case that meets them. -/

namespace Sys2Proof.Tests

open Sys2Proof Sys2Proof.Machine

/-! ## Helpers -/

/-- A value of the next state an outcome gives. -/
def after {α : Type} (o : Host.Outcome State Fault Refusal) (f : State → α) : Option α :=
  match o with
  | .next t => some (f t)
  | .fault _ => none
  | .refused _ => none

/-- The next state of an outcome, or the state after reset where there is none. -/
def answer (o : Host.Outcome State Fault Refusal) : State := (after o id).getD State.reset

/-- A lane no micro-operation has written, its cells marked so that a write of a tail lane shows. -/
def untouched : Lane := { va := 0x5555, vb := 0x5555, vw := 0x55555555, vy := 0x5555 }

/-- The memory of T6: A, B, and Y filled with 0xDEAD. -/
def memT6 : Memory :=
  [(0x1000, 0x0A), (0x1002, 0xFF), (0x1003, 0x7F), (0x1005, 0x80), (0x2000, 0x05), (0x2002, 0xFF), (0x2003, 0xFF),
    (0x2004, 0x01), (0x3000, 0xAD), (0x3001, 0xDE), (0x3002, 0xAD), (0x3003, 0xDE), (0x3004, 0xAD), (0x3005, 0xDE),
    (0x3006, 0xAD), (0x3007, 0xDE)]

/-- The working registers of T6, with the group width `vl`. -/
def workT6 (vl : Word) : WorkRegs :=
  { rem := 3, pa := 0x1000, pb := 0x2000, py := 0x3000, alphaL := 0xFFFD, vlim := 4, vl := vl }

/-- The state of T6 at the code `u`, with the group width `vl` and these lanes 0 to 2; lane 3 is a tail lane. -/
def groupT6 (u : UopCode) (vl : Word) (lanes : List Lane) : State :=
  { State.reset with
    upc := u
    work := workT6 vl
    lanes := lanes ++ [untouched]
    mem := memT6
    env := { Env.empty with draws := [2], launch := ⟨3, 0x1000, 0x2000, 0x3000⟩ } }

/-- Three lanes nothing has written. -/
def fresh : List Lane := [untouched, untouched, untouched]

/-- An idle instance with the arguments of a run of `n` elements of A at 0x1000 and B at 0x2000 into 0x3000. -/
def ready (n : Word) : State :=
  { State.reset with cmd := { n := n, alpha := 100, aBase := 0x1000, bBase := 0x2000, yBase := 0x3000 } }

/-- `ready` with the engine at CHKN of a run of `rem` elements left of `n`. -/
def running (n rem : Word) : State :=
  { ready n with
    upc := 0x1
    work := { workT6 0 with rem := rem }
    env := { Env.empty with launch := ⟨n, 0x1000, 0x2000, 0x3000⟩ } }

/-! ## Well-formed instructions -/

/-- The one check: a write of CTRL with the START bit set is spelled START.S or START.V (R95). -/
theorem test_wellFormed_refuses_wr_of_start :
    Instr.wellFormed (.wr .ctrl 1) = false ∧ Instr.wellFormed (.wr .ctrl 0xFFFFFFFF) = false := by decide

theorem test_wellFormed_accepts :
    Instr.wellFormed (.wr .ctrl 2) = true ∧ Instr.wellFormed (.wr .n 1) = true ∧ Instr.wellFormed .vsty = true ∧
    Instr.wellFormed (.startS 7) = true ∧ Instr.wellFormed (.rd .ctrl 1) = true := by decide

/-! ## Decoding: words written out from R92, R93, R95 and T8 -/

theorem test_decode_uops :
    decodeTableWord 8 0b0001 = some .chkn ∧ decodeTableWord 8 0b0010 = some .setvl ∧
    decodeTableWord 8 0b0011 = some .vlda ∧ decodeTableWord 8 0b0100 = some .vldb ∧
    decodeTableWord 8 0b0101 = some .vwmul ∧ decodeTableWord 8 0b0110 = some .vwadd ∧
    decodeTableWord 8 0b0111 = some .vnsat ∧ decodeTableWord 8 0b1000 = some .vsty ∧
    decodeTableWord 8 0b1001 = some .adv := by decide

theorem test_decode_idle_and_reserved :
    decode (.m4 0x0) = .error .idle ∧ decode (.m4 0xA) = .error (.reservedCode 0xA) ∧
    decode (.m4 0xF) = .error (.reservedCode 0xF) ∧ decodeTableWord 8 0x10 = none ∧
    decodeTableWord 40 0x1000000000 = none := by decide

theorem test_decode_starts :
    decodeTableWord 40 0x800000001 = some (.startS 0) ∧ decodeTableWord 40 0x800000003 = some (.startV 0) ∧
    decodeTableWord 40 0x8FFFFFFFD = some (.startS 0x3FFFFFFF) := by decide

theorem test_decode_writes :
    decodeTableWord 40 0xA00000008 = some (.wr .n 8) ∧ decodeTableWord 40 0xBFFFFFF9C = some (.wr .alpha 0xFFFFFF9C) ∧
    decodeTableWord 40 0xC00001001 = some (.wr .aBase 0x1001) ∧
    decodeTableWord 40 0xD00002000 = some (.wr .bBase 0x2000) ∧
    decodeTableWord 40 0xE00003000 = some (.wr .yBase 0x3000) ∧
    decodeTableWord 40 0x800000002 = some (.wr .ctrl 2) ∧
    decodeTableWord 40 0x9FFFFFFFF = some (.wr .status 0xFFFFFFFF) ∧
    decodeTableWord 40 0xF00000000 = some (.wr .cap 0) := by decide

theorem test_decode_reads :
    decodeTableWord 40 0x000000000 = some (.rd .ctrl 0) ∧ decodeTableWord 40 0x100000000 = some (.rd .status 0) ∧
    decodeTableWord 40 0x300000000 = some (.rd .alpha 0) ∧ decodeTableWord 40 0x700000000 = some (.rd .cap 0) := by
  decide

/-! ## Arithmetic: T1 to T5 -/

theorem test_qmul :
    qmul 0xFF9C 0x0320 = 0xFFFEC780 ∧ qmul 0xFFFF 0x8000 = 0x00008000 ∧ qmul 0x7FFF 0x8000 = 0xC0008000 ∧
    qmul 0x8000 0x8000 = 0x40000000 := by decide

theorem test_wadd :
    wadd 0xFFFF 0 = 0xFFFFFFFF ∧ wadd 0x8000 0x00008000 = 0 ∧ wadd 0x7FFF 0x40000000 = 0x40007FFF ∧
    wadd 0x8000 0xC0008000 = 0xC0000000 := by decide

theorem test_satn :
    satn 0x00007FFF = 0x7FFF ∧ satn 0x00008000 = 0x7FFF ∧ satn 0x3FFF8000 = 0x7FFF ∧ satn 0xFFFF8000 = 0x8000 ∧
    satn 0xFFFF7FFF = 0x8000 ∧ satn 0xFFFF8001 = 0x8001 ∧ satn 0x80000000 = 0x8000 := by decide

/-- T4 rows 7, 16, 20, 23 (S3), 24 (S4), 27. -/
theorem test_mac :
    mac 0x8001 1 0xFFFF = 0x8000 ∧ mac 0x8000 0xFFFF 0x8000 = 0 ∧ mac 0x7FFF 0xFF00 255 = 0x80FF ∧
    mac 0x8000 0x8000 0x8000 = 0x7FFF ∧ mac 0x7FFF 0x7FFF 0x7FFF = 0x7FFF ∧ mac 0x7FFF 1 0x8000 = 0xFFFF := by decide

theorem test_qmuls : qmuls 182 181 = 0x7FFF ∧ qmuls 0xFF4A 181 = 0x8000 ∧ qmuls 0x4000 0x4000 = 0x7FFF := by decide

/-- P2's results by R118. -/
theorem test_axpyRef :
    axpyRef 5 0xFFFD (fun i => [0x000A, 0x7FFF, 0x8000, 0x0000, 0xFFFB].getD i 0)
      (fun i => [0x0005, 0xFFFF, 0x0001, 0x8000, 0x2710].getD i 0) = [0xFFFB, 0x7FFF, 0x8000, 0x7FFF, 0x8ACB] := by
  decide

/-! ## The datapath: T6 -/

theorem test_setvl_takes_the_draw :
    after (exec .setvl (groupT6 2 0 fresh)) (fun t => (t.work.vl, t.upc, t.env.draws)) = some (3, 3, []) := by decide

/-- T6: the set {1} for `rem = 9, vlim = 1`. -/
theorem test_setvl_single_choice :
    after (exec .setvl { groupT6 2 0 fresh with work := { workT6 0 with rem := 9, vlim := 1 } }) (·.work.vl) =
      some 1 := by decide

theorem test_vlda : after (exec .vlda (groupT6 3 3 fresh)) (fun t => (t.lanes.map Lane.va, t.upc)) =
    some ([0x000A, 0x7FFF, 0x8000, 0x5555], 4) := by decide

theorem test_vldb : after (exec .vldb (groupT6 4 3 fresh)) (fun t => (t.lanes.map Lane.vb, t.upc)) =
    some ([0x0005, 0xFFFF, 0x0001, 0x5555], 5) := by decide

theorem test_vwmul :
    after (exec .vwmul (groupT6 5 3 [{ untouched with vb := 5 }, { untouched with vb := 0xFFFF },
      { untouched with vb := 1 }])) (fun t => (t.lanes.map Lane.vw, t.upc)) =
    some ([0xFFFFFFF1, 0x00000003, 0xFFFFFFFD, 0x55555555], 6) := by decide

theorem test_vwadd :
    after (exec .vwadd (groupT6 6 3 [{ untouched with va := 0x000A, vw := 0xFFFFFFF1 },
      { untouched with va := 0x7FFF, vw := 0x00000003 }, { untouched with va := 0x8000, vw := 0xFFFFFFFD }]))
      (fun t => (t.lanes.map Lane.vw, t.upc)) =
    some ([0xFFFFFFFB, 0x00008002, 0xFFFF7FFD, 0x55555555], 7) := by decide

theorem test_vnsat :
    after (exec .vnsat (groupT6 7 3 [{ untouched with vw := 0xFFFFFFFB }, { untouched with vw := 0x00008002 },
      { untouched with vw := 0xFFFF7FFD }])) (fun t => (t.lanes.map Lane.vy, t.upc)) =
    some ([0xFFFB, 0x7FFF, 0x8000, 0x5555], 8) := by decide

/-- Lanes whose results are those of T6 step 6. -/
def narrowed : List Lane := [{ untouched with vy := 0xFFFB }, { untouched with vy := 0x7FFF }, { untouched with vy := 0x8000 }]

theorem test_vsty :
    after (exec .vsty (groupT6 8 3 narrowed)) (fun t => ((List.range 8).map fun k => Memory.read t.mem (0x3000 + k), t.upc)) =
      some ([0xFB, 0xFF, 0xFF, 0x7F, 0x00, 0x80, 0xAD, 0xDE], 9) := by decide

/-! ## The sequencer: T7 -/

theorem test_adv :
    after (exec .adv (groupT6 9 3 fresh)) (fun t => (t.work.rem, t.work.pa, t.work.pb, t.work.py, t.upc)) =
      some (0, 0x1006, 0x2006, 0x3006, 1) := by decide

theorem test_adv_wraps :
    after (exec .adv { groupT6 9 1 fresh with work := { workT6 1 with rem := 1, pa := 0xFFFFFFFE } })
      (fun t => (t.work.rem, t.work.pa)) = some (0, 0) := by decide

theorem test_chkn_goes_on : after (exec .chkn (running 8 1)) (fun t => (t.upc, t.done)) = some (2, false) := by decide

theorem test_chkn_ends : after (exec .chkn (running 8 0)) (fun t => (t.upc, t.statusWord)) = some (0, 2) := by decide

/-! ## The host commands: T8, T9, P1, P5 -/

theorem test_startV :
    after (exec (.startV 0) (ready 8)) (fun t => (t.work.rem, t.work.pa, t.work.py, t.work.alphaL, t.work.vlim, t.upc)) =
      some (8, 0x1000, 0x3000, 100, 4, 1) := by decide

theorem test_startV_fallback :
    after (exec (.startV 0) { ready 8 with cfg := { Config.default with hasVector := false } }) (·.work.vlim) = some 1 := by
  decide

theorem test_startS : after (exec (.startS 0) (ready 8)) (fun t => (t.work.vlim, t.statusWord)) = some (1, 1) := by decide

theorem test_startS_dropped : after (exec (.startS 0) (running 8 5)) id = some (running 8 5) := by decide

theorem test_wr_cuts :
    after (exec (.wr .alpha 0xFFFFFF9C) State.reset) (fun t => t.readCReg .alpha) = some 0x0000FF9C ∧
    after (exec (.wr .aBase 0x1001) State.reset) (fun t => t.readCReg .aBase) = some 0x1000 := by decide

theorem test_wr_during_run : after (exec (.wr .n 99) (running 8 5)) (fun t => (t.cmd.n, t.work.rem)) = some (99, 5) := by
  decide

theorem test_rd :
    after (exec (.rd .cap 0) State.reset) (·.env.hostRead) = some (some 0x00010004) ∧
    after (exec (.rd .status 0) (running 8 5)) (·.env.hostRead) = some (some 1) := by decide

theorem test_rd_cap_scalar_only :
    after (exec (.rd .cap 0) { State.reset with cfg := { Config.default with vlmax := 1, hasVector := false } })
      (·.env.hostRead) = some (some 0x00000001) := by decide

/-- The instruction of a table word is the one the next step runs. -/
theorem test_fetch_word :
    after (step (State.reset.withFetchWord 40 0xB0000FF9C)) (·.cmd.alpha) = some 0xFF9C ∧
    after (step (State.reset.withFetchWord 8 0x1)) (fun t => (t.upc, t.done)) = some (0, true) := by decide

/-! ## Witnesses: a concrete case of the hypotheses of each statement that has some -/

/-- The next state of an outcome that has one. -/
theorem next_answer {o : Host.Outcome State Fault Refusal} (h : (after o id).isSome = true) : o = .next (answer o) := by
  cases o with
  | next t => rfl
  | fault r => cases h
  | refused r => cases h

/-- Each clause at the edge of its range: 32768, -32769, 32767 and -32768. -/
theorem witness_NarrowerClampsElsePasses :
    (0x00008000 : W32).toInt > 32767 ∧ (0xFFFF7FFF : W32).toInt < -32768 ∧
    (-32768 ≤ (0x00007FFF : W32).toInt ∧ (0x00007FFF : W32).toInt ≤ 32767) ∧
    (-32768 ≤ (0xFFFF8000 : W32).toInt ∧ (0xFFFF8000 : W32).toInt ≤ 32767) := by decide

/-- Sums 32766 and -32767, next to the bounds. -/
theorem witness_OutputAtBoundIffSumReachesIt :
    (-32768 < (32765 : Q15).toInt + (1 : Q15).toInt * (1 : Q15).toInt ∧
      (32765 : Q15).toInt + (1 : Q15).toInt * (1 : Q15).toInt < 32767) ∧
    (-32768 < (0x8002 : Q15).toInt + (1 : Q15).toInt * (0xFFFF : Q15).toInt ∧
      (0x8002 : Q15).toInt + (1 : Q15).toInt * (0xFFFF : Q15).toInt < 32767) := by decide

theorem witness_SaturatingMultiplierLaws : (0x8001 : Q15) ≠ 0x8000 ∧ (0x7FFF : Q15) ≠ 0x8000 := by decide

theorem witness_EveryEncodedInstructionDecodesBack :
    Instr.wellFormed (.wr .ctrl 0xFFFFFFFE) = true ∧ Instr.wellFormed (.startV 0x3FFFFFFF) = true := by decide

theorem witness_EveryDecodedWordEncodesBack :
    decode (.m4 0x9) = .ok .adv ∧ decode (.h36 0x8FFFFFFFD) = .ok (.startS 0x3FFFFFFF) := by decide

theorem witness_HostMapByMatchAndMask :
    (0x8FFFFFFFD : HostWord) &&& 0xF00000003 = 0x800000001 ∧ (0x8FFFFFFFF : HostWord) &&& 0xF00000003 = 0x800000003 ∧
    ((0x800000002 : HostWord) &&& 0xF00000003 ≠ 0x800000001 ∧ (0x800000002 : HostWord) &&& 0xF00000003 ≠ 0x800000003 ∧
      (0x800000002 : HostWord) &&& 0x800000000 = 0x800000000) ∧
    (0x7FFFFFFFF : HostWord) &&& 0x800000000 = 0x000000000 := by decide

/-- The first and the last reserved code, the engine scheduled and alone. -/
theorem witness_ReservedCodesAreRefused :
    (0xA ≤ (State.reset.withUpc 0xA).upc.toNat ∧ (State.reset.withUpc 0xA).engineMovesNext) ∧
    (0xA ≤ ((State.reset.withUpc 0xF).withSchedule [.engine]).upc.toNat ∧
      ((State.reset.withUpc 0xF).withSchedule [.engine]).engineMovesNext) :=
  ⟨⟨by decide, .inl rfl⟩, by decide, .inr ⟨[], rfl⟩⟩

theorem witness_ChknEndsRunExactlyAtZero : (running 8 0).work.rem = 0 ∧ (running 8 1).work.rem ≠ 0 := by decide

/-- `vl = rem`, the last group. -/
theorem witness_AdvMovesPointersAndCount :
    (groupT6 9 3 fresh).cfg.aw ≤ 32 ∧ (groupT6 9 3 fresh).cfg.cw ≤ 32 ∧
    (groupT6 9 3 fresh).work.vl.toNat ≤ (groupT6 9 3 fresh).work.rem.toNat ∧
    (groupT6 9 3 fresh).work.rem.toNat < 2 ^ (groupT6 9 3 fresh).cfg.cw := by decide

/-- One element left, in a count register of one bit. -/
theorem witness_SetvlGrantsWithinRange :
    let s : State := { groupT6 2 0 fresh with
      cfg := { Config.default with cw := 1 }, work := { workT6 0 with rem := 1, vlim := 1 } }
    1 ≤ s.work.rem.toNat ∧ 1 ≤ s.work.vlim.toNat ∧ s.work.vlim.toNat < 2 ^ s.cfg.cw ∧ s.cfg.cw ≤ 32 := by decide

/-- The least and the greatest grant. -/
theorem witness_EveryGrantCanBeDrawn :
    (groupT6 2 0 fresh).work.vlim.toNat < 2 ^ (groupT6 2 0 fresh).cfg.cw ∧ (groupT6 2 0 fresh).cfg.cw ≤ 32 ∧
    1 ≤ 1 ∧ 1 ≤ min (groupT6 2 0 fresh).work.rem.toNat (groupT6 2 0 fresh).work.vlim.toNat ∧
    3 ≤ min (groupT6 2 0 fresh).work.rem.toNat (groupT6 2 0 fresh).work.vlim.toNat := by decide

/-- T6's group of A and of B is admitted; lane 2 is its last active lane, lane 3 a tail lane. -/
theorem witness_LoadsFillTheActiveLanes :
    GroupAdmitted (groupT6 3 3 fresh).cfg engineReads (groupT6 3 3 fresh).work.pa (groupT6 3 3 fresh).activeLanes ∧
    GroupAdmitted (groupT6 4 3 fresh).cfg engineReads (groupT6 4 3 fresh).work.pb (groupT6 4 3 fresh).activeLanes ∧
    (groupT6 3 3 fresh).lanes[2]? = some untouched ∧ (groupT6 3 3 fresh).lanes[3]? = some untouched :=
  ⟨groupAdmitted_iff.2 (by decide), groupAdmitted_iff.2 (by decide), by decide, by decide⟩

theorem witness_MultiplyAndNarrowPerLane :
    (groupT6 5 3 fresh).lanes[2]? = some untouched ∧ 2 < (groupT6 5 3 fresh).work.vl.toNat ∧
    (groupT6 7 3 fresh).lanes[3]? = some untouched ∧ (groupT6 7 3 fresh).work.vl.toNat ≤ 3 := by decide

/-- The two ends of the 32-bit range in active lanes, and a tail lane. -/
theorem witness_WideningAddPerLane :
    let hi : Lane := { untouched with va := 0x7FFF, vw := 0x7FFF8000 }
    let lo : Lane := { untouched with va := 0x8000, vw := 0x80008000 }
    let s := groupT6 6 3 [hi, lo, untouched]
    (s.lanes[0]? = some hi ∧ 0 < s.work.vl.toNat ∧ hi.va.toInt + hi.vw.toInt = 2147483647) ∧
    (s.lanes[1]? = some lo ∧ 1 < s.work.vl.toNat ∧ lo.va.toInt + lo.vw.toInt = -2147483648) ∧
    (s.lanes[3]? = some untouched ∧ s.work.vl.toNat ≤ 3) := by decide

/-- The group at the very top of the address space, and an address just below it. -/
theorem witness_StoreWritesTheActiveElements :
    let s : State := { groupT6 8 3 narrowed with work := { workT6 3 with py := 0xFFFFFFFA } }
    Memory.wf s.mem ∧ GroupAdmitted s.cfg engineWrites s.work.py s.activeLanes ∧
    (∀ i, i < s.activeLanes → 0xFFFFFFF9 ≠ elemAddr s.cfg s.work.py i ∧
      0xFFFFFFF9 ≠ secondByte s.cfg (elemAddr s.cfg s.work.py i)) ∧
    s.work.py.toNat + 2 * s.work.vl.toNat ≤ 2 ^ s.cfg.aw ∧ 2 < s.work.vl.toNat ∧
    s.lanes[2]? = some { untouched with vy := 0x8000 } :=
  ⟨by decide, groupAdmitted_iff.2 (by decide), by decide, by decide, by decide, by decide⟩

/-- A platform with no memory at all: no group of an element is admitted. -/
theorem witness_UnadmittedGroupsAreRefused :
    let s : State := { groupT6 3 3 fresh with cfg := { Config.default with regions := [] } }
    ¬ GroupAdmitted s.cfg engineReads s.work.pa s.activeLanes ∧
    ¬ GroupAdmitted s.cfg engineReads s.work.pb s.activeLanes ∧
    ¬ GroupAdmitted s.cfg engineWrites s.work.py s.activeLanes :=
  ⟨fun h => absurd (groupAdmitted_iff.1 h) (by decide), fun h => absurd (groupAdmitted_iff.1 h) (by decide),
    fun h => absurd (groupAdmitted_iff.1 h) (by decide)⟩

/-- VWMUL with another tail lane. -/
theorem witness_TailElementsAreNeverRead :
    let s := groupT6 5 3 fresh
    let ls := fresh ++ [Lane.zero]
    isLaneUop .vwmul = true ∧ ls.length = s.lanes.length ∧ (∀ k, k < s.work.vl.toNat → ls[k]? = s.lanes[k]?) ∧
    exec .vwmul s = .next (answer (exec .vwmul s)) := ⟨rfl, rfl, by decide, rfl⟩

/-- The default instance, and one of the narrowest count. -/
theorem witness_StartLatchesTheArguments :
    (configWf (ready 8).cfg = true ∧ (ready 8).busy = false ∧ launchRefusal (ready 8).cfg (ready 8).launchArgs = none) ∧
    (let s : State := { ready 1 with cfg := { Config.default with cw := 1, hasVector := false } }
     configWf s.cfg = true ∧ s.busy = false ∧ launchRefusal s.cfg s.launchArgs = none) := by decide

theorem witness_StartWhileBusyIsDropped : (running 8 5).busy = true ∧ (0xFFFFFFFD : Word).getLsbD 0 = true := by decide

theorem witness_FallbackIsTheScalarKernel :
    ({ ready 8 with cfg := { Config.default with vlmax := 1, hasVector := false } } : State).cfg.hasVector = false := by
  decide

/-- Each of the three reasons, and a launch of no element from the same broken arguments. -/
theorem witness_BrokenPreconditionsRefuseTheLaunch :
    let top : State := { ready 8 with cmd := { (ready 8).cmd with aBase := 0xFFFFFFF2 } }
    let overlap : State := { ready 8 with cmd := { (ready 8).cmd with yBase := 0x1002 } }
    let dev : State := { ready 8 with cfg := { Config.default with
      regions := [⟨0, 0x3008, .plain⟩, ⟨0x3008, 4, .device⟩] } }
    (top.busy = false ∧ launchRefusal top.cfg top.launchArgs = some .bufferNotAdmitted) ∧
    (overlap.busy = false ∧ launchRefusal overlap.cfg overlap.launchArgs = some .bufferAliased) ∧
    (dev.busy = false ∧ launchRefusal dev.cfg dev.launchArgs = some .bufferOnDevice) ∧
    ((ready 0).busy = false ∧ (ready 0).cmd.n = 0) := by decide

theorem witness_LaunchAcceptedIffPreconditionsHold :
    configWf { vlmax := 65535, hasVector := false, aw := 2, cw := 1, regions := [⟨0, 2, .engineReadOnly⟩, ⟨2, 2, .plain⟩] } =
      true := by decide

theorem witness_WrStoresTheCutOperand :
    State.reset.cfg.aw ≤ 32 ∧ State.reset.cfg.cw ≤ 32 ∧ (0xFFFFFFFE : Word).getLsbD 0 = false ∧
    (0xFFFFFFFF : Word).getLsbD 0 = true := by decide

theorem witness_RdReturnsTheRegister :
    ({ State.reset with cfg := { Config.default with vlmax := 65535 } } : State).cfg.vlmax ≤ 65535 := by decide

theorem witness_OnlyWrChangesArgumentRegisters :
    exec (.wr .n 99) (ready 8) = .next (answer (exec (.wr .n 99) (ready 8))) ∧
    (answer (exec (.wr .n 99) (ready 8))).cmd ≠ (ready 8).cmd := ⟨rfl, by decide⟩

/-- The CHKN that ends a run, and a START after a run. -/
theorem witness_OnlyChknAndStartChangeDone :
    (exec .chkn (running 8 0) = .next (answer (exec .chkn (running 8 0))) ∧
      (answer (exec .chkn (running 8 0))).done ≠ (running 8 0).done) ∧
    (exec (.wr .ctrl 3) ((ready 8).withDone true) = .next (answer (exec (.wr .ctrl 3) ((ready 8).withDone true))) ∧
      (answer (exec (.wr .ctrl 3) ((ready 8).withDone true))).done ≠ ((ready 8).withDone true).done) :=
  ⟨⟨next_answer (by decide), by decide⟩, next_answer (by decide), by decide⟩

theorem witness_OnlyVstyChangesMemory :
    (exec .vldb (groupT6 4 3 fresh) = .next (answer (exec .vldb (groupT6 4 3 fresh))) ∧ Instr.vldb ≠ .vsty ∧
      isLaneUop .vldb = true) ∧
    (exec .adv (groupT6 9 3 fresh) = .next (answer (exec .adv (groupT6 9 3 fresh))) ∧ isLaneUop .adv = false) :=
  ⟨⟨next_answer (by decide), by decide, rfl⟩, next_answer (by decide), rfl⟩

theorem witness_RunsIgnoreTheArgumentRegisters :
    isUop .vsty = true ∧ exec .vsty (groupT6 8 3 narrowed) = .next (answer (exec .vsty (groupT6 8 3 narrowed))) :=
  ⟨rfl, next_answer (by decide)⟩

theorem witness_HostAccessesLeaveTheRunAlone : (running 8 5).busy = true := by decide

/-- The last byte of Y, the first byte past it, and a byte of A, during a run. -/
theorem witness_HostMemoryMoves :
    let s := running 8 5
    (admits s.cfg hostReaches (0x300F : Word).toNat = true ∧ s.inRunBuffers (0x300F : Word).toNat = true) ∧
    (admits s.cfg hostReaches (0x3010 : Word).toNat = true ∧ s.inRunBuffers (0x3010 : Word).toNat = false ∧
      Memory.wf s.mem) ∧
    (admits s.cfg hostReaches (0x1000 : Word).toNat = true ∧ s.inRunOutput (0x1000 : Word).toNat = false) ∧
    (s.withSchedule [.store 0x3010 7]).env.schedule = [.store 0x3010 7] ∧
    (s.withSchedule [.load 0x1000]).env.schedule = [.load 0x1000] := by decide

/-- A micro-operation of a scheduled engine, a host access, and an idle engine that moves next. -/
theorem witness_StepRunsTheDecodedInstruction :
    (Instr.wellFormed .chkn = true ∧ ((running 8 5).withSchedule [.engine]).engineMovesNext ∧
      encode .chkn = .m4 ((running 8 5).withSchedule [.engine]).upc) ∧
    (Instr.wellFormed (.wr .n 99) = true ∧
      ((running 8 5).withSchedule [.access 0xA00000063]).env.schedule = .access 0xA00000063 :: [] ∧
      encode (.wr .n 99) = .h36 0xA00000063) ∧
    ((ready 8).engineMovesNext ∧ (ready 8).busy = false) :=
  ⟨⟨rfl, .inr ⟨[], rfl⟩, by decide⟩, ⟨rfl, rfl, by decide⟩, .inl rfl, by decide⟩

/-- Each transfer: the reset input, START, CHKN both ways, a fall through, and ADV. -/
theorem witness_OnlyTransfersOfControl :
    let moves (s : State) (u : UopCode) : Bool := after (step s) (·.upc) == some u && s.upc != u
    let reset := (running 8 5).withSchedule [.reset]
    (moves reset 0 = true ∧ reset.env.schedule.head? = some .reset) ∧
    (let start := (ready 8).withSchedule [.access 0x800000003]
     moves start 1 = true ∧ start.env.schedule.head? ≠ some .reset) ∧
    (moves (running 8 0) 0 = true ∧ (running 8 0).env.schedule.head? ≠ some .reset) ∧
    (moves (running 8 5) 2 = true ∧ (running 8 5).env.schedule.head? ≠ some .reset) ∧
    (moves (groupT6 8 3 narrowed) 9 = true ∧ (groupT6 8 3 narrowed).env.schedule.head? ≠ some .reset) ∧
    (moves (groupT6 9 3 fresh) 1 = true ∧ (groupT6 9 3 fresh).env.schedule.head? ≠ some .reset) := by decide

theorem witness_ResetInputAbandonsTheRun : ((running 8 5).withSchedule [.reset]).env.schedule = .reset :: [] := rfl

/-- The state of T6 before SETVL is safe: an example of a run in progress. -/
theorem groupT6_safe : (groupT6 2 0 fresh).Safe where
  inv := ⟨by decide, by decide, by unfold BaseOk; decide, by unfold BaseOk; decide, by unfold BaseOk; decide, by decide,
    by decide, by decide, by decide, by decide, by decide, by decide, by decide, by decide, by decide, by decide⟩
  run := fun _ => ⟨by decide, by unfold BaseOk; decide, by unfold BaseOk; decide, by unfold BaseOk; decide, by decide,
    by decide, by decide, by decide, by decide, by decide, by decide, by decide⟩

/-- An idle state with arguments is safe, of any of these shapes. -/
theorem ready_safe : (ready 1).Safe where
  inv := ⟨by decide, by decide, by unfold BaseOk; decide, by unfold BaseOk; decide, by unfold BaseOk; decide, by decide,
    by decide, by decide, by decide, by decide, by decide, by decide, by decide, by decide, by decide, by decide⟩
  run := fun h => by cases h

theorem witness_EveryStepKeepsSafeStates :
    (groupT6 2 0 fresh).Safe ∧ step (groupT6 2 0 fresh) = .next (answer (step (groupT6 2 0 fresh))) :=
  ⟨groupT6_safe, next_answer (by decide)⟩

theorem witness_EngineIsNeverStuckInARun :
    (groupT6 2 0 fresh).Safe ∧ (groupT6 2 0 fresh).busy = true ∧ (groupT6 2 0 fresh).engineMovesNext :=
  ⟨groupT6_safe, by decide, .inl rfl⟩

theorem witness_StatusReadsOneOfThreeValues : (ready 1).Safe ∧ (groupT6 2 0 fresh).Safe := ⟨ready_safe, groupT6_safe⟩

theorem witness_RunAddressesAreEven : (groupT6 2 0 fresh).Safe ∧ (groupT6 2 0 fresh).busy = true :=
  ⟨groupT6_safe, by decide⟩

theorem witness_EmptyRunTouchesNothing :
    isStart (.startV 0) = true ∧ (ready 0).busy = false ∧ (ready 0).cmd.n = 0 ∧ (ready 0).env.schedule = [] := by decide

theorem witness_GroupStoresTheLaneFunction :
    (groupT6 2 0 fresh).Safe ∧ (groupT6 2 0 fresh).upc = 2 ∧ (groupT6 2 0 fresh).env.schedule = [] :=
  ⟨groupT6_safe, rfl, rfl⟩

/-- A host access and an engine move scheduled before the engine runs alone. -/
theorem witness_RunLeavesAxpyRefInMemory :
    let s := (ready 1).withSchedule [.access 0x100000000, .engine]
    isStart (.startS 0) = true ∧ s.Safe ∧ s.busy = false ∧ launchRefusal s.cfg s.launchArgs = none ∧
    ∀ m ∈ s.env.schedule, m.isQuiet = true :=
  ⟨rfl, ⟨⟨by decide, by decide, by unfold BaseOk; decide, by unfold BaseOk; decide, by unfold BaseOk; decide, by decide,
    by decide, by decide, by decide, by decide, by decide, by decide, by decide, by decide, by decide, by decide⟩,
    fun h => by cases h⟩, by decide, by decide, by decide⟩

theorem witness_RunEndsAfterNineStepsAPass :
    isStart (.startV 0) = true ∧ (ready 1).Safe ∧ (ready 1).busy = false ∧
    launchRefusal (ready 1).cfg (ready 1).launchArgs = none ∧ (ready 1).env.schedule = [] :=
  ⟨rfl, ready_safe, by decide, by decide, rfl⟩

/-- The condition on the steps before the last, read off by evaluation. -/
theorem in_run_or_unscheduled {s : State} {k : Nat}
    (h : ∀ j, j < k → after (Host.Core.run Sys2Proof.core j s) (fun u => u.busy || u.env.schedule.isEmpty) = some true) :
    ∀ j, j < k → ∃ u, Host.Core.run Sys2Proof.core j s = .next u ∧ (u.busy = true ∨ u.env.schedule = []) := by
  intro j hj
  specialize h j hj
  cases e : Host.Core.run Sys2Proof.core j s with
  | next u =>
    rw [e] at h
    exact ⟨u, rfl, by simpa [after] using h⟩
  | fault r => cases r
  | refused r => rw [e] at h; cases h

/-- The scalar kernel on one element with a read of STATUS and a dropped START in between, up to its end, and the
vectorized kernel with the engine alone, looked at two steps after its end. -/
theorem witness_KernelsAndGrantsAgree :
    let s := (ready 1).withSchedule [.access 0x100000000, .engine, .access 0x800000001]
    let s' := ready 1
    let s1 := answer (exec (.startS 0) s)
    let s1' := answer (exec (.startV 0) s')
    let t := answer (Host.Core.run Sys2Proof.core 12 s1)
    let t' := answer (Host.Core.run Sys2Proof.core 12 s1')
    (isStart (.startS 0) = true ∧ isStart (.startV 0) = true ∧ s.Safe ∧ s'.Safe ∧ s.busy = false ∧ s'.busy = false ∧
      (∀ m ∈ s.env.schedule, m.isQuiet = true) ∧ (∀ m ∈ s'.env.schedule, m.isQuiet = true) ∧
      s'.cfg.aw = s.cfg.aw ∧ s'.cmd = s.cmd ∧ s'.mem = s.mem) ∧
    (exec (.startS 0) s = .next s1 ∧ exec (.startV 0) s' = .next s1' ∧
      Host.Core.run Sys2Proof.core 12 s1 = .next t ∧ Host.Core.run Sys2Proof.core 12 s1' = .next t') ∧
    (∀ j, j < 12 → ∃ u, Host.Core.run Sys2Proof.core j s1 = .next u ∧ (u.busy = true ∨ u.env.schedule = [])) ∧
    (∀ j, j < 12 → ∃ u, Host.Core.run Sys2Proof.core j s1' = .next u ∧ (u.busy = true ∨ u.env.schedule = [])) ∧
    t.busy = false ∧ t'.busy = false ∧
    (∀ w r d, Move.access w ∈ s.env.schedule → decodeHost w ≠ .wr r d) ∧
    (∀ w r d, Move.access w ∈ s'.env.schedule → decodeHost w ≠ .wr r d) :=
  ⟨⟨rfl, rfl, ⟨⟨by decide, by decide, by unfold BaseOk; decide, by unfold BaseOk; decide, by unfold BaseOk; decide,
      by decide, by decide, by decide, by decide, by decide, by decide, by decide, by decide, by decide, by decide,
      by decide⟩, fun h => by cases h⟩, ready_safe, by decide, by decide, by decide, by decide, rfl, rfl, rfl⟩,
    ⟨next_answer (by decide), next_answer (by decide), next_answer (by decide), next_answer (by decide)⟩,
    in_run_or_unscheduled (by decide), in_run_or_unscheduled (by decide), by decide, by decide,
    by
      intro w r d hw
      obtain rfl | rfl : w = 0x100000000 ∨ w = 0x800000001 := by simpa [ready, State.reset] using hw
      · rw [show decodeHost 0x100000000 = .rd .status 0 by decide]; nofun
      · rw [show decodeHost 0x800000001 = .startS 0 by decide]; nofun,
    fun w r d hw => by cases hw⟩

end Sys2Proof.Tests
end

/-! SUPPORT. Said once: which parts of the state an instruction can change when it answers a next state, and under
which condition. The frame statements read their answer off this list. -/

namespace Sys2Proof.Machine

open Sys2Proof

/-- The spellings of START: the two rows of their own, and a write of CTRL with bit 0 set (spec/42_engine.md R178). -/
def issuesStart (i : Instr) : Prop := isStart i = true ∨ ∃ d, i = .wr .ctrl d ∧ d.getLsbD 0 = true

theorem isLaneUop_of_issuesStart {i : Instr} (h : issuesStart i) : isLaneUop i = false := by
  rcases h with h | ⟨d, rfl, -⟩
  · cases i
    case startS => rfl
    case startV => rfl
    all_goals cases h
  · rfl

/-- Every kind of next state an instruction can answer. -/
inductive Effect (i : Instr) (s : State) : State → Prop where
  | lanes (f : Nat → Lane → Lane) (u : UopCode) (lane : isLaneUop i = true) (noStore : i ≠ .vsty) :
      Effect i s ((s.updateLanes f).withUpc u)
  | memory (m : Memory) (u : UopCode) (vsty : i = .vsty) : Effect i s ((s.withMem m).withUpc u)
  | sequencer (e : Env) (w : WorkRegs) (u : UopCode) (noLane : isLaneUop i = false) :
      Effect i s (((s.withEnv e).withWork w).withUpc u)
  | ended (chkn : i = .chkn) (noneLeft : s.work.rem = 0) : Effect i s ((s.withDone true).withUpc 0x0)
  | launched (vec : Bool) (start : issuesStart i) (idle : s.busy = false) : Effect i s (s.launched vec)
  | dropped (noLane : isLaneUop i = false) : Effect i s s
  | stored (r : CReg) (d : Word) (wr : i = .wr r d) : Effect i s (s.storeCReg d r)
  | returned (v : Word) (noLane : isLaneUop i = false) : Effect i s (s.returnToHost v)

theorem effect_of_startRun {i : Instr} {vec : Bool} {s t : State} (hi : issuesStart i) (h : startRun vec s = .next t) :
    Effect i s t := by
  rcases startRun_next h with ⟨-, rfl⟩ | ⟨hb, -, rfl⟩
  · exact .dropped (isLaneUop_of_issuesStart hi)
  · exact .launched vec hi hb

/-- A write of CTRL with bit 0 set is a START; every other write stores its operand. -/
theorem exec_wr_next {r : CReg} {d : Word} {s t : State} (h : exec (.wr r d) s = .next t) :
    (r = .ctrl ∧ d.getLsbD 0 = true ∧ startRun (d.getLsbD 1) s = .next t) ∨ t = s.storeCReg d r := by
  simp only [exec, execWr] at h
  split at h
  case isTrue hr => exact .inl ⟨hr.1, hr.2, h⟩
  case isFalse => exact .inr (Host.Outcome.next.inj h).symm

/-- What an instruction answers is one of the effects. -/
theorem exec_effect {i : Instr} {s t : State} (h : exec i s = .next t) : Effect i s t := by
  cases i with
  | chkn =>
    rcases exec_chkn_next h with ⟨hr, rfl⟩ | ⟨-, rfl⟩
    · exact .ended rfl hr
    · exact .sequencer s.env s.work _ rfl
  | setvl =>
    obtain ⟨ds, k, e⟩ := exec_setvl_eq s
    obtain rfl := Host.Outcome.next.inj (e.symm.trans h)
    exact .sequencer _ _ _ rfl
  | vlda => obtain ⟨-, rfl⟩ := exec_vlda_next h; exact .lanes _ _ rfl nofun
  | vldb => obtain ⟨-, rfl⟩ := exec_vldb_next h; exact .lanes _ _ rfl nofun
  | vwmul => cases h; exact .lanes _ _ rfl nofun
  | vwadd => cases h; exact .lanes _ _ rfl nofun
  | vnsat => cases h; exact .lanes _ _ rfl nofun
  | vsty => obtain ⟨-, rfl⟩ := exec_vsty_next h; exact .memory _ _ rfl
  | adv => cases h; exact .sequencer s.env _ _ rfl
  | startS g => exact effect_of_startRun (.inl rfl) h
  | startV g => exact effect_of_startRun (.inl rfl) h
  | wr r d =>
    rcases exec_wr_next h with ⟨rfl, hd, hs⟩ | rfl
    · exact effect_of_startRun (.inr ⟨d, rfl, hd⟩) hs
    · exact .stored r d rfl
  | rd r g => cases h; exact .returned _ rfl

/-- Settles O30, by the kinds of next state: only a stored operand lands in the argument registers, and none does for
CTRL, STATUS and CAP. -/
theorem onlyWrChangesArgumentRegisters : Obligations.OnlyWrChangesArgumentRegisters := by
  intro i s t h hne
  cases exec_effect h with
  | stored r d hi => refine ⟨r, d, hi, ?_, ?_, ?_⟩ <;> rintro rfl <;> exact hne rfl
  | _ => exact absurd rfl hne

/-- Settles O31, by the kinds of next state: the end of a run and its beginning are the two that touch DONE. -/
theorem onlyChknAndStartChangeDone : Obligations.OnlyChknAndStartChangeDone := by
  intro i s t h hne
  cases exec_effect h with
  | ended hi hr => exact .inl ⟨hi, hr, rfl⟩
  | launched vec hi hb => exact .inr ⟨hi, hb, rfl⟩
  | stored r d hi =>
    obtain ⟨c, hc⟩ := storeCReg_spec s d r
    rw [hc] at hne
    exact absurd rfl hne
  | _ => exact absurd rfl hne

/-- An instruction outside the lane datapath that keeps the configuration, memory and the lanes has the frame that
`Obligations.OnlyVstyChangesMemory` states. -/
theorem frame_of_not_laneUop {i : Instr} {s t : State} (hi : isLaneUop i = false) (hc : t.cfg = s.cfg)
    (hm : t.mem = s.mem) (hl : t.lanes = s.lanes) :
    t.cfg = s.cfg ∧ (i ≠ .vsty → ∀ a, Memory.read t.mem a = Memory.read s.mem a) ∧
    (isLaneUop i = false ∨ i = .vsty → t.lanes = s.lanes) ∧
    (isLaneUop i = true → t.work = s.work ∧ t.env = s.env) :=
  ⟨hc, fun _ a => by rw [hm], fun _ => hl, fun h => by simp [hi] at h⟩

/-- Settles O32, by the kinds of next state. -/
theorem onlyVstyChangesMemory : Obligations.OnlyVstyChangesMemory := by
  intro i s t h
  cases exec_effect h with
  | lanes f u hi hv =>
    exact ⟨rfl, fun _ _ => rfl, fun h => by simp [hi, hv] at h, fun _ => ⟨rfl, rfl⟩⟩
  | memory m u hi => exact ⟨rfl, fun h => absurd hi h, fun _ => rfl, fun _ => ⟨rfl, rfl⟩⟩
  | sequencer e w u hi => exact frame_of_not_laneUop hi rfl rfl rfl
  | ended hi => subst hi; exact frame_of_not_laneUop rfl rfl rfl rfl
  | launched vec hi => exact frame_of_not_laneUop (isLaneUop_of_issuesStart hi) rfl rfl rfl
  | dropped hi => exact frame_of_not_laneUop hi rfl rfl rfl
  | stored r d hi =>
    subst hi
    obtain ⟨c, hc⟩ := storeCReg_spec s d r
    rw [hc]
    exact frame_of_not_laneUop rfl rfl rfl rfl
  | returned v hi => exact frame_of_not_laneUop hi rfl rfl rfl

end Sys2Proof.Machine

/-! SUPPORT. What the micro-operations do not read: the argument registers, and the tail lanes. -/

namespace Sys2Proof.Machine

open Sys2Proof

/-! ## The admitted accesses, answered -/

theorem exec_vlda_of_admitted {s : State} (h : elemsAdmitted s.cfg engineReads s.work.pa s.activeLanes = true) :
    exec .vlda s =
      .next ((s.updateLanes fun i l => { l with va := Memory.elem s.cfg s.mem s.work.pa i }).withUpc 0x4) := if_pos h

theorem exec_vldb_of_admitted {s : State} (h : elemsAdmitted s.cfg engineReads s.work.pb s.activeLanes = true) :
    exec .vldb s =
      .next ((s.updateLanes fun i l => { l with vb := Memory.elem s.cfg s.mem s.work.pb i }).withUpc 0x5) := if_pos h

theorem exec_vsty_of_admitted {s : State} (h : elemsAdmitted s.cfg engineWrites s.work.py s.activeLanes = true) :
    exec .vsty s = .next ((s.withMem (Memory.storeElems s.cfg s.work.py 0
      ((s.lanes.take s.work.vl.toNat).map Lane.vy) s.mem)).withUpc 0x9) := if_pos h

/-! ## The argument registers -/

theorem takeDraw_withCmd (s : State) (c : CmdRegs) :
    (s.withCmd c).takeDraw = (s.takeDraw.1, s.takeDraw.2.withCmd c) := by
  unfold State.takeDraw
  rw [State.withCmd_env]
  split <;> rfl

theorem exec_setvl_withCmd {s t : State} (c : CmdRegs) (h : exec .setvl s = .next t) :
    exec .setvl (s.withCmd c) = .next (t.withCmd c) := by
  cases h
  simp only [exec, execSetvl, takeDraw_withCmd]
  rfl

/-- A micro-operation does the same with other argument registers, and keeps those. -/
theorem exec_withCmd {i : Instr} {s t : State} (c : CmdRegs) (hi : isUop i = true) (h : exec i s = .next t) :
    exec i (s.withCmd c) = .next (t.withCmd c) := by
  cases i with
  | chkn =>
    rcases exec_chkn_next h with ⟨hr, rfl⟩ | ⟨hr, rfl⟩
    · exact if_pos hr
    · exact if_neg hr
  | setvl => exact exec_setvl_withCmd c h
  | vlda => obtain ⟨ha, rfl⟩ := exec_vlda_next h; exact exec_vlda_of_admitted (s := s.withCmd c) ha
  | vldb => obtain ⟨ha, rfl⟩ := exec_vldb_next h; exact exec_vldb_of_admitted (s := s.withCmd c) ha
  | vsty => obtain ⟨ha, rfl⟩ := exec_vsty_next h; exact exec_vsty_of_admitted (s := s.withCmd c) ha
  | vwmul => cases h; rfl
  | vwadd => cases h; rfl
  | vnsat => cases h; rfl
  | adv => cases h; rfl
  | startS | startV | wr | rd => cases hi

/-- Settles O33, micro-operation by micro-operation. -/
theorem runsIgnoreTheArgumentRegisters : Obligations.RunsIgnoreTheArgumentRegisters :=
  fun _ _ _ c hi h => exec_withCmd c hi h

/-! ## The tail lanes -/

/-- `t'` is `t` but for its lanes: the first `vl` are those of `t`, the others those of `ls`. -/
def TailReplaced (vl : Nat) (ls : List Lane) (t t' : State) : Prop :=
  t' = { t with lanes := t'.lanes } ∧ (∀ k, k < vl → t'.lanes[k]? = t.lanes[k]?) ∧
    ∀ k, vl ≤ k → t'.lanes[k]? = ls[k]?

section
variable {s : State} {ls : List Lane} (hag : ∀ k, k < s.work.vl.toNat → ls[k]? = s.lanes[k]?)
include hag

/-- Active lanes that agree are changed alike: a lane function sees no lane but its own (spec/41_lane_uops.md R148). -/
theorem tailReplaced_updateLanes (f : Nat → Lane → Lane) (u : UopCode) :
    TailReplaced s.work.vl.toNat ls ((s.updateLanes f).withUpc u) (((s.withLanes ls).updateLanes f).withUpc u) := by
  refine ⟨rfl, fun k hk => ?_, fun k hk => ?_⟩ <;>
    simp only [State.withUpc_lanes, State.updateLanes_lanes, State.withLanes_lanes, State.withLanes_work,
      mapActive_getElem?]
  · rw [hag k hk]
  · simp [Nat.not_lt.2 hk]

theorem take_eq_of_agree : ls.take s.work.vl.toNat = s.lanes.take s.work.vl.toNat := by
  apply List.ext_getElem?
  intro k
  simp only [List.getElem?_take]
  split
  · exact hag k ‹_›
  · rfl

/-- A lane micro-operation reads no tail lane and keeps them all. -/
theorem exec_withLanes {i : Instr} {t : State} (hi : isLaneUop i = true) (hlen : ls.length = s.lanes.length)
    (h : exec i s = .next t) :
    ∃ t', exec i (s.withLanes ls) = .next t' ∧ TailReplaced s.work.vl.toNat ls t t' := by
  have hact : (s.withLanes ls).activeLanes = s.activeLanes := by simp [State.activeLanes, hlen]
  cases i with
  | vlda =>
    obtain ⟨ha, rfl⟩ := exec_vlda_next h
    exact ⟨_, exec_vlda_of_admitted (by rw [hact]; exact ha), tailReplaced_updateLanes hag _ _⟩
  | vldb =>
    obtain ⟨ha, rfl⟩ := exec_vldb_next h
    exact ⟨_, exec_vldb_of_admitted (by rw [hact]; exact ha), tailReplaced_updateLanes hag _ _⟩
  | vwmul => cases h; exact ⟨_, rfl, tailReplaced_updateLanes hag _ _⟩
  | vwadd => cases h; exact ⟨_, rfl, tailReplaced_updateLanes hag _ _⟩
  | vnsat => cases h; exact ⟨_, rfl, tailReplaced_updateLanes hag _ _⟩
  | vsty =>
    obtain ⟨ha, rfl⟩ := exec_vsty_next h
    refine ⟨_, exec_vsty_of_admitted (by rw [hact]; exact ha), ?_, hag, fun _ _ => rfl⟩
    simp only [State.withLanes_lanes, State.withLanes_work, take_eq_of_agree hag]
    rfl
  | chkn | setvl | adv | startS | startV | wr | rd => cases hi

end

/-- Settles O22, lane micro-operation by lane micro-operation. -/
theorem tailElementsAreNeverRead : Obligations.TailElementsAreNeverRead :=
  fun _ _ _ _ hi hlen hag h => exec_withLanes hag hi hlen h

end Sys2Proof.Machine

/-! SUPPORT. The safe states: reset is one, every update a step is made of keeps their facts, so every step keeps
them. -/

namespace Sys2Proof.Machine

open Sys2Proof

/-! ## Reset and STATUS -/

/-- Settles O38, register by register. -/
theorem resetStateReadsAsTheSpecSays : Obligations.ResetStateReadsAsTheSpecSays := by
  refine ⟨rfl, rfl, fun r hr => ?_, by decide, rfl⟩
  cases r
  case cap => exact absurd rfl hr
  all_goals decide

/-- A base register may hold 0, whatever the configuration. -/
theorem baseOk_zero (c : Config) : BaseOk c 0 := ⟨Nat.two_pow_pos _, rfl⟩

/-- Settles O40: every field of the fixed state is legal, and the engine is idle. -/
theorem resetStateIsSafe : Obligations.ResetStateIsSafe where
  inv :=
    { cfg_wf := by decide
      n_bits := by decide
      aBase_ok := baseOk_zero _
      bBase_ok := baseOk_zero _
      yBase_ok := baseOk_zero _
      rem_bits := by decide
      vlim_bits := by decide
      vl_bits := by decide
      pa_bits := by decide
      pb_bits := by decide
      py_bits := by decide
      lanes_len := rfl
      mem_wf := ⟨.nil, nofun⟩
      mem_space := nofun
      upc_code := by decide
      flags := fun _ => rfl }
  run := nofun

/-- STATUS by its two flags (spec/10_state.md R24). -/
theorem statusWord_eq (s : State) :
    s.statusWord = if s.done then (if s.busy then 3 else 2) else if s.busy then 1 else 0 := by
  unfold State.statusWord
  cases s.done <;> cases s.busy <;> rfl

/-- Settles O43: of the four values of the two flags, a safe state never has both set. -/
theorem statusReadsOneOfThreeValues : Obligations.StatusReadsOneOfThreeValues := by
  intro s h
  have hflags := h.inv.flags
  rw [State.readCReg, statusWord_eq]
  cases hb : s.busy
  · cases s.done <;> simp
  · simp [hflags hb]

/-! ## The facts of every state, kept by each update -/

section
variable {s : State}

theorem State.Inv.withUpc (h : s.Inv) {u : UopCode} (hu : u.toNat ≤ 9) (hd : s.done = false) : (s.withUpc u).Inv :=
  { h with upc_code := hu, flags := fun _ => hd }

theorem State.Inv.withEnv (h : s.Inv) (e : Env) : (s.withEnv e).Inv := { h with }

theorem State.Inv.updateLanes (h : s.Inv) (f : Nat → Lane → Lane) : (s.updateLanes f).Inv :=
  { h with lanes_len := (mapActive_length _ _ _).trans h.lanes_len }

theorem State.Inv.withMem (h : s.Inv) {m : Memory} (hwf : Memory.wf m) (hsp : ∀ p ∈ m, p.1 < 2 ^ s.cfg.aw) :
    (s.withMem m).Inv := { h with mem_wf := hwf, mem_space := hsp }

theorem State.Inv.storeCReg (h : s.Inv) (d : Word) (r : CReg) : (s.storeCReg d r).Inv := by
  have hc := configOk_of_wf h.cfg_wf
  have hbase : BaseOk s.cfg (cutBase s.cfg d) := cutBase_lt_even hc.aw_ge hc.aw_le d
  cases r with
  | ctrl | status | cap => exact h
  | n => exact { h with n_bits := cutCount_lt hc.cw_le _ }
  | alpha => exact { h with }
  | aBase => exact { h with aBase_ok := hbase }
  | bBase => exact { h with bBase_ok := hbase }
  | yBase => exact { h with yBase_ok := hbase }

theorem State.Inv.launched (h : s.Inv) (vec : Bool) : (s.launched vec).Inv :=
  { h with
    rem_bits := h.n_bits
    pa_bits := h.aBase_ok.1
    pb_bits := h.bBase_ok.1
    py_bits := h.yBase_ok.1
    vlim_bits := (vlimOf_range (configOk_of_wf h.cfg_wf) vec).2.2
    upc_code := show (1 : UopCode).toNat ≤ 9 by decide
    flags := fun _ => rfl }

/-- The reset input leaves legal values everywhere: the free values are cut to their registers (log 5). -/
theorem State.Inv.applyReset (h : s.Inv) : (applyReset s).Inv :=
  have hc := configOk_of_wf h.cfg_wf
  { h with
    n_bits := Nat.two_pow_pos _
    aBase_ok := baseOk_zero _
    bBase_ok := baseOk_zero _
    yBase_ok := baseOk_zero _
    rem_bits := cutCount_lt hc.cw_le _
    vlim_bits := cutCount_lt hc.cw_le _
    vl_bits := cutCount_lt hc.cw_le _
    pa_bits := cutAddr_lt hc.aw_le _
    pb_bits := cutAddr_lt hc.aw_le _
    py_bits := cutAddr_lt hc.aw_le _
    lanes_len := by simp [Machine.applyReset]
    upc_code := Nat.zero_le 9
    flags := fun _ => rfl }

/-! ## The facts of every state, kept by each micro-operation -/

theorem State.Inv.exec_chkn {t : State} (h : s.Inv) (hd : s.done = false) (e : exec .chkn s = .next t) : t.Inv := by
  rcases exec_chkn_next e with ⟨-, rfl⟩ | ⟨-, rfl⟩
  · exact { h with upc_code := Nat.zero_le 9, flags := nofun }
  · exact h.withUpc (by decide) hd

theorem State.Inv.exec_setvl {t : State} (h : s.Inv) (hd : s.done = false) (e : exec .setvl s = .next t) : t.Inv := by
  obtain ⟨ds, k, e'⟩ := exec_setvl_eq s
  obtain rfl := Host.Outcome.next.inj (e'.symm.trans e)
  exact { h with
    vl_bits := cutCount_lt (configOk_of_wf h.cfg_wf).cw_le _
    upc_code := show (3 : UopCode).toNat ≤ 9 by decide
    flags := fun _ => hd }

theorem State.Inv.exec_vsty {t : State} (h : s.Inv) (hd : s.done = false) (e : exec .vsty s = .next t) : t.Inv := by
  obtain ⟨-, rfl⟩ := exec_vsty_next e
  exact (h.withMem (Memory.storeElems_wf h.mem_wf) (Memory.storeElems_space h.mem_space)).withUpc (by decide) hd

theorem State.Inv.exec_adv {t : State} (h : s.Inv) (hd : s.done = false) (e : exec .adv s = .next t) : t.Inv := by
  have hc := configOk_of_wf h.cfg_wf
  cases e
  exact { h with
    pa_bits := cutAddr_lt hc.aw_le _
    pb_bits := cutAddr_lt hc.aw_le _
    py_bits := cutAddr_lt hc.aw_le _
    rem_bits := cutCount_lt hc.cw_le _
    upc_code := show (1 : UopCode).toNat ≤ 9 by decide
    flags := fun _ => hd }

theorem State.Inv.exec_uop {i : Instr} {t : State} (h : s.Inv) (hd : s.done = false) (hi : isUop i = true)
    (e : exec i s = .next t) : t.Inv := by
  cases i with
  | chkn => exact h.exec_chkn hd e
  | setvl => exact h.exec_setvl hd e
  | vlda => obtain ⟨-, rfl⟩ := exec_vlda_next e; exact (h.updateLanes _).withUpc (by decide) hd
  | vldb => obtain ⟨-, rfl⟩ := exec_vldb_next e; exact (h.updateLanes _).withUpc (by decide) hd
  | vwmul => cases e; exact (h.updateLanes _).withUpc (by decide) hd
  | vwadd => cases e; exact (h.updateLanes _).withUpc (by decide) hd
  | vnsat => cases e; exact (h.updateLanes _).withUpc (by decide) hd
  | vsty => exact h.exec_vsty hd e
  | adv => exact h.exec_adv hd e
  | startS | startV | wr | rd => cases hi

end

/-- The micro-operations are the instructions with a code, and their codes are not IDLE's (spec/30_encoding.md R92). -/
theorem isUop_of_encode {i : Instr} {c : UopCode} (h : encode i = .m4 c) : isUop i = true ∧ c ≠ 0 := by
  cases i with
  | startS | startV | wr | rd => cases h
  | _ => cases h; decide

/-! ## Safe states, kept by each move of each agent -/

section
variable {s t : State}

/-- The facts of a run speak only of the configuration, `upc`, the working registers and the latched arguments. -/
theorem State.RunInv.congr (h : s.RunInv) (hc : t.cfg = s.cfg) (hu : t.upc = s.upc) (hw : t.work = s.work)
    (hl : t.env.launch = s.env.launch) : t.RunInv := by
  obtain ⟨h1, h2, h3, h4, h5, h6, h7, h8, h9, h10, h11, h12⟩ := h
  constructor <;> simpa only [hc, hu, hw, hl]

/-- A move that leaves the run alone keeps a safe state where it keeps the facts of every state. -/
theorem State.Safe.of_run_alone (h : s.Safe) (hi : t.Inv) (hc : t.cfg = s.cfg) (hu : t.upc = s.upc)
    (hw : t.work = s.work) (hl : t.env.launch = s.env.launch) : t.Safe :=
  ⟨hi, fun hb => (h.run (by rwa [State.busy, hu] at hb)).congr hc hu hw hl⟩

theorem State.Safe.withSchedule (h : s.Safe) (ms : List Move) : (s.withSchedule ms).Safe :=
  h.of_run_alone (h.inv.withEnv _) rfl rfl rfl rfl

theorem State.Safe.engine (h : s.Safe) (e : runFetched (fetchEngine s) = .next t) : t.Safe := by
  rcases engine_next e with ⟨-, rfl⟩ | ⟨i, hcode, hexec⟩
  · exact h
  · obtain ⟨hi, hne⟩ := isUop_of_encode hcode
    have hb := s.busy_iff.2 hne
    obtain ⟨t', e', hrun⟩ := run_engine h.inv (h.run hb) hb
    obtain rfl := Host.Outcome.next.inj (e'.symm.trans e)
    exact ⟨h.inv.exec_uop (h.inv.flags hb) hi hexec, hrun⟩

theorem State.Safe.access (h : s.Safe) {w : HostWord} (e : exec (decodeHost w) s = .next t) : t.Safe := by
  rcases exec_host_next e with ⟨vec, hs⟩ | ⟨r, d, rfl⟩ | ⟨r, rfl⟩
  · rcases startRun_next hs with ⟨-, rfl⟩ | ⟨-, hl, rfl⟩
    · exact h
    · exact ⟨h.inv.launched vec, fun _ => runInv_launched h.inv hl vec⟩
  · have hi := h.inv.storeCReg d r
    obtain ⟨c, hc⟩ := storeCReg_spec s d r
    rw [hc] at hi ⊢
    exact h.of_run_alone hi rfl rfl rfl rfl
  · exact h.of_run_alone (h.inv.withEnv _) rfl rfl rfl rfl

theorem State.Safe.hostStore (h : s.Safe) {a : Word} {v : Byte} (e : hostStore a v s = .next t) : t.Safe := by
  obtain ⟨hadm, -, rfl⟩ := hostStore_next e
  have ha : a.toNat < 2 ^ s.cfg.aw := of_decide_eq_true (Bool.and_eq_true_iff.1 hadm).1
  exact h.of_run_alone
    (h.inv.withMem (Memory.write_wf h.inv.mem_wf _ _) (Memory.write_space h.inv.mem_space ha _)) rfl rfl rfl rfl

theorem State.Safe.hostLoad (h : s.Safe) {a : Word} (e : hostLoad a s = .next t) : t.Safe := by
  obtain ⟨k, v, rfl⟩ := hostLoad_next e
  exact h.of_run_alone ((h.inv.withEnv _).withEnv _) rfl rfl rfl rfl

theorem State.Safe.applyReset (h : s.Safe) : (applyReset s).Safe := ⟨h.inv.applyReset, nofun⟩

end

/-- Settles O41, by the kinds of move a step can be. -/
theorem everyStepKeepsSafeStates : Obligations.EveryStepKeepsSafeStates := by
  intro s t h e
  obtain ⟨rest, hmove⟩ := step_next e
  have h' := h.withSchedule rest
  rcases hmove with e | ⟨w, e⟩ | ⟨a, v, e⟩ | ⟨a, e⟩ | rfl
  · exact h'.engine e
  · exact h'.access e
  · exact h'.hostStore e
  · exact h'.hostLoad e
  · exact h'.applyReset

end Sys2Proof.Machine


/-! SUPPORT. The platform's memory map and the run: what the launch check decides, and what it gives each access of a
run that it let begin. -/

namespace Sys2Proof.Machine

open Sys2Proof

/-! ## The engine of a run -/

/-- Settles O42: the run's facts admit every access of the engine's step, and they do not speak of the schedule. -/
theorem engineIsNeverStuckInARun : Obligations.EngineIsNeverStuckInARun := by
  intro s hs hb hmove
  have hs' := hs.withSchedule s.scheduleAfter
  obtain ⟨t, e, -⟩ := run_engine hs'.inv (hs'.run hb) hb
  exact ⟨t, by rw [step, fetch_engine hmove, e]⟩

/-! ## The launch check against the preconditions of spec/20_memory.md R65 to R67 -/

theorem regionHolds_iff {r : Region} {a : Nat} : regionHolds r a = true ↔ r.base ≤ a ∧ a < r.base + r.size := by
  simp [regionHolds]

/-- Regions in rising order share no address. -/
theorem region_unique {rs : List Region} (hrs : rs.Pairwise fun r q => r.base + r.size ≤ q.base) {r q : Region} {a : Nat}
    (hr : r ∈ rs) (hq : q ∈ rs) (hra : regionHolds r a = true) (hqa : regionHolds q a = true) : r = q := by
  rw [regionHolds_iff] at hra hqa
  obtain ⟨i, hi, rfl⟩ := List.getElem_of_mem hr
  obtain ⟨j, hj, rfl⟩ := List.getElem_of_mem hq
  rw [List.pairwise_iff_getElem] at hrs
  rcases Nat.lt_trichotomy i j with hlt | rfl | hlt
  · have := hrs i j hi hj hlt
    omega
  · rfl
  · have := hrs j i hj hi hlt
    omega

/-- The interval check of an admitted buffer, address by address: in a rising map it misses none. -/
theorem bufferAdmitted_iff {c : Config} (hc : ConfigOk c) {ok : RegionKind → Bool} {base n : Word} :
    bufferAdmitted c ok base n = true ↔
      base.toNat + 2 * n.toNat ≤ 2 ^ c.aw ∧ ∀ k, k < 2 * n.toNat → admits c ok (base.toNat + k) = true := by
  constructor
  · intro h
    exact ⟨bufferAdmitted_end h, fun k hk => bufferAdmitted_elem h (by omega) (by omega)⟩
  · intro ⟨htop, hall⟩
    have hcov : coveredBy ok c.regions base.toNat (bufferEnd base n) = true :=
      coveredBy_complete hc.rising fun a ha ha' => by
        have hadm := hall (a - base.toNat) (by unfold bufferEnd at ha'; omega)
        rw [Nat.add_sub_cancel' ha] at hadm
        exact (Bool.and_eq_true_iff.1 hadm).2
    exact Bool.and_eq_true_iff.2 ⟨decide_eq_true htop, hcov⟩

/-- A buffer that is admitted for an access no device takes has no byte in a device (spec/20_memory.md R67). -/
theorem touchesDevice_of_admitted {c : Config} (hc : ConfigOk c) {ok : RegionKind → Bool} (hok : ok .device = false)
    {base n : Word} (h : bufferAdmitted c ok base n = true) : touchesDevice c base n = false := by
  rw [touchesDevice, List.any_eq_false]
  intro r hr hdev
  rw [Bool.and_eq_true, beq_iff_eq, decide_eq_true_eq, bufferEnd] at hdev
  obtain ⟨hkind, hlt⟩ := hdev
  have hadm : admits c ok (max base.toNat r.base) = true := bufferAdmitted_elem h (by omega) (by omega)
  obtain ⟨q, hq, hqa⟩ := List.any_eq_true.1 (Bool.and_eq_true_iff.1 hadm).2
  rw [Bool.and_eq_true] at hqa
  have hrq : r = q := region_unique hc.rising hr hq (regionHolds_iff.2 (by omega)) hqa.2
  rw [← hrq, hkind, hok] at hqa
  exact absurd hqa.1 Bool.false_ne_true

theorem partialOverlap_eq_false_iff {y x n : Word} : partialOverlap y x n = false ↔
    y = x ∨ y.toNat + 2 * n.toNat ≤ x.toNat ∨ x.toNat + 2 * n.toNat ≤ y.toNat := by
  refine ⟨not_partialOverlap, fun h => ?_⟩
  simp only [partialOverlap, Bool.and_eq_false_iff, bne_eq_false_iff_eq, decide_eq_false_iff_not]
  unfold bufferEnd
  rcases h with h | h | h
  · exact .inl (.inl h)
  · exact .inr (by omega)
  · exact .inl (.inr (by omega))

/-- The check of a launch with elements passes exactly on admitted buffers that do not overlap partially: of admitted
buffers none lies in a device. -/
theorem launchRefusal_eq_none_iff {c : Config} (hc : ConfigOk c) {l : Launch} (hn : l.n ≠ 0) :
    launchRefusal c l = none ↔ LaunchOk c l := by
  refine ⟨fun h => launchOk_of_none h hn, fun ⟨ha, hb, hy, hya, hyb⟩ => ?_⟩
  rw [launchRefusal, if_neg hn, touchesDevice_of_admitted hc rfl ha, touchesDevice_of_admitted hc rfl hb,
    touchesDevice_of_admitted hc rfl hy, ha, hb, hy, hya, hyb]
  rfl

/-- With no element the preconditions are empty (spec/20_memory.md R65). -/
theorem launchRefusal_of_n_zero (c : Config) {l : Launch} (hn : l.n = 0) : launchRefusal c l = none := if_pos hn

/-- Settles O27, precondition by precondition. -/
theorem launchAcceptedIffPreconditionsHold : Obligations.LaunchAcceptedIffPreconditionsHold := by
  intro c l hwf
  have hc := configOk_of_wf hwf
  by_cases hn : l.n = 0
  · exact iff_of_true (launchRefusal_of_n_zero c hn) (.inl hn)
  rw [launchRefusal_eq_none_iff hc hn, or_iff_right hn]
  constructor
  · intro ⟨ha, hb, hy, hya, hyb⟩
    rw [bufferAdmitted_iff hc] at ha hb hy
    exact ⟨⟨ha.1, hb.1, hy.1⟩, fun k hk => ⟨ha.2 k hk, hb.2 k hk, hy.2 k hk⟩,
      not_partialOverlap hya, not_partialOverlap hyb⟩
  · intro ⟨⟨ha, hb, hy⟩, hadm, hya, hyb⟩
    exact ⟨(bufferAdmitted_iff hc).2 ⟨ha, fun k hk => (hadm k hk).1⟩,
      (bufferAdmitted_iff hc).2 ⟨hb, fun k hk => (hadm k hk).2.1⟩,
      (bufferAdmitted_iff hc).2 ⟨hy, fun k hk => (hadm k hk).2.2⟩,
      partialOverlap_eq_false_iff.2 hya, partialOverlap_eq_false_iff.2 hyb⟩

/-! ## Even addresses (spec/20_memory.md R62) -/

/-- The modulus of the address space is even, so it keeps an address even. -/
theorem even_mod_space {c : Config} (hc : ConfigOk c) {a : Nat} (h : a % 2 = 0) : a % 2 ^ c.aw % 2 = 0 := by
  rw [Nat.mod_mod_of_dvd _ (dvd_pow_self 2 (by have := hc.aw_ge; omega)), h]

/-- The elements at a pointer of a run into a buffer with an even base have even addresses. -/
theorem elemAddr_even {c : Config} (hc : ConfigOk c) {base p : Word} {k : Nat} (hbase : BaseOk c base)
    (hp : p.toNat = pointerAt c base k) (i : Nat) : elemAddr c p i % 2 = 0 := by
  have hpe : p.toNat % 2 = 0 := by
    rw [hp]
    exact even_mod_space hc (by have := hbase.2; omega)
  exact even_mod_space hc (by omega)

/-- Settles O44, from the even bases the run's START latched. -/
theorem runAddressesAreEven : Obligations.RunAddressesAreEven := by
  intro s i hs hb
  have hc := configOk_of_wf hs.inv.cfg_wf
  have hrun := hs.run hb
  exact ⟨elemAddr_even hc hrun.aBase_ok hrun.pa_at i, elemAddr_even hc hrun.bBase_ok hrun.pb_at i,
    elemAddr_even hc hrun.yBase_ok hrun.py_at i⟩

/-! ## What is refused -/

/-- Settles O21: each of the three accesses is guarded by the check of its group's addresses. -/
theorem unadmittedGroupsAreRefused : Obligations.UnadmittedGroupsAreRefused := by
  intro s
  simp only [groupAdmitted_iff]
  exact ⟨fun h => if_neg h, fun h => if_neg h, fun h => if_neg h⟩

/-- A START of the idle engine answers the reason the launch check gives. -/
theorem startRun_of_refusal {s : State} {r : Refusal} (hb : s.busy = false)
    (h : launchRefusal s.cfg s.launchArgs = some r) (vec : Bool) : startRun vec s = .refused r := by
  rw [startRun, hb, h]
  rfl

/-- The reasons of the launch check, one for each precondition. -/
theorem launchRefusal_reason {c : Config} {l : Launch} {r : Refusal} (h : launchRefusal c l = some r) :
    r = .bufferNotAdmitted ∨ r = .bufferOnDevice ∨ r = .bufferAliased := by
  unfold launchRefusal at h
  split at h
  · cases h
  · split at h
    · exact .inr (.inl (Option.some.inj h).symm)
    · split at h
      · exact .inl (Option.some.inj h).symm
      · split at h
        · exact .inr (.inr (Option.some.inj h).symm)
        · cases h

/-- Settles O26: both forms are the one START, which answers what the launch check says. -/
theorem brokenPreconditionsRefuseTheLaunch : Obligations.BrokenPreconditionsRefuseTheLaunch := by
  intro s g hb
  exact ⟨fun r h => ⟨startRun_of_refusal hb h false, startRun_of_refusal hb h true, launchRefusal_reason h⟩,
    fun hn => launchRefusal_of_n_zero _ hn⟩

end Sys2Proof.Machine

/-! SUPPORT. The encodings: the rows of the host command map read as conditions on the fields of a host word, the
match and mask of each row read the same way, and the codes no micro-operation has. -/

namespace Sys2Proof

/-! ## The fields of a host word (spec/30_encoding.md R93) -/

/-- The bits above the two lowest, as the START rows keep them, are the same bits of the whole word. -/
theorem data_ignoredBits (w : HostWord) : w.data.extractLsb' 2 30 = w.extractLsb' 2 30 := by
  ext i hi
  simp only [HostWord.data, BitVec.getElem_extractLsb', BitVec.getLsbD_extractLsb']
  simp [show 2 + i < 32 by omega]

/-- A bit below 2 is read from the two lowest bits. -/
theorem getLsbD_of_lowBits {d : Word} {lo : BitVec 2} {i : Nat} (h : d.extractLsb' 0 2 = lo) (hi : i < 2) :
    d.getLsbD i = lo.getLsbD i := by
  simp [← h, hi]

/-- Data bits with bit 0 set end in 01 or in 11. -/
theorem lowBits_of_bit0 {d : Word} (h : d.getLsbD 0 = true) :
    d.extractLsb' 0 2 = 0b01#2 ∨ d.extractLsb' 0 2 = 0b11#2 := by
  have key : ∀ lo : BitVec 2, lo.getLsbD 0 = true → lo = 0b01#2 ∨ lo = 0b11#2 := by decide
  exact key _ (by rwa [← getLsbD_of_lowBits rfl (by decide)])

/-- A word of data is the bits the START rows ignore above the two they test. -/
theorem data_eq_append {d : Word} {lo : BitVec 2} (h : d.extractLsb' 0 2 = lo) : d.extractLsb' 2 30 ++ lo = d := by
  rw [← h]
  exact BitVec.extractLsb'_append_extractLsb'

theorem hostWord_inj {we we' : BitVec 1} {idx idx' : BitVec 3} {data data' : Word} :
    hostWord we idx data = hostWord we' idx' data' ↔ we = we' ∧ idx = idx' ∧ data = data' := by
  constructor
  · intro h
    have hwe := congrArg HostWord.we h
    have hidx := congrArg HostWord.idx h
    have hdata := congrArg HostWord.data h
    simp only [hostWord_we, hostWord_idx, hostWord_data] at hwe hidx hdata
    exact ⟨BitVec.eq_of_getLsbD_eq fun i hi => by rwa [Nat.lt_one_iff.1 hi], hidx, hdata⟩
  · rintro ⟨rfl, rfl, rfl⟩
    rfl

/-- A mask acts on a host word field by field. -/
theorem hostWord_and (we we' : BitVec 1) (idx idx' : BitVec 3) (data data' : Word) :
    hostWord we idx data &&& hostWord we' idx' data' = hostWord (we &&& we') (idx &&& idx') (data &&& data') := by
  unfold hostWord
  exact BitVec.and_append.trans (congrArg (· ++ (data &&& data')) BitVec.and_append)

/-! ## The rows of the host command map (spec/30_encoding.md R95) -/

section
variable {w : HostWord}

theorem decodeHost_startS (hwe : w.we = true) (hidx : w.idx = 0) (hlo : w.data.extractLsb' 0 2 = 0b01#2) :
    decodeHost w = .startS (w.data.extractLsb' 2 30) := by
  have h0 : w.data.getLsbD 0 = true := getLsbD_of_lowBits hlo (by decide)
  have h1 : w.data.getLsbD 1 = false := getLsbD_of_lowBits hlo (by decide)
  rw [decodeHost, hwe, hidx, h0, h1]
  rfl

theorem decodeHost_startV (hwe : w.we = true) (hidx : w.idx = 0) (hlo : w.data.extractLsb' 0 2 = 0b11#2) :
    decodeHost w = .startV (w.data.extractLsb' 2 30) := by
  have h0 : w.data.getLsbD 0 = true := getLsbD_of_lowBits hlo (by decide)
  have h1 : w.data.getLsbD 1 = true := getLsbD_of_lowBits hlo (by decide)
  rw [decodeHost, hwe, hidx, h0, h1]
  rfl

/-- The row WR is reached where neither START row fits: the register is not CTRL, or bit 0 is clear. -/
theorem decodeHost_wr (hwe : w.we = true) (hrow : w.idx = 0 → w.data.getLsbD 0 = false) :
    decodeHost w = .wr (CReg.ofIndex w.idx) w.data := by
  have hstart : (w.idx == 0 && w.data.getLsbD 0) = false := by
    rw [Bool.and_eq_false_imp, beq_iff_eq]
    exact hrow
  simp only [decodeHost, hwe, Bool.true_and, hstart]
  rfl

theorem decodeHost_rd (hwe : w.we = false) : decodeHost w = .rd (CReg.ofIndex w.idx) w.data := by
  simp [decodeHost, hwe]

end

/-- Of the host accesses, only a write of CTRL with bit 0 set is not well formed: it is spelled START. -/
theorem wellFormed_wr_iff {r : CReg} {d : Word} :
    Instr.wellFormed (.wr r d) = true ↔ (r.index = 0 → d.getLsbD 0 = false) := by
  cases r <;> simp [Instr.wellFormed, CReg.index]

/-! ## Decoding an encoding, and encoding what was decoded -/

/-- Settles O8, row by row: the fields of the word that `encode` builds are those its row tests and reads. -/
theorem everyEncodedInstructionDecodesBack : Obligations.EveryEncodedInstructionDecodesBack := by
  intro i hi
  cases i with
  | startS g =>
    rw [encode, decode_h36, decodeHost_startS (by simp) (by simp), hostWord_data, BitVec.extractLsb'_append_eq_left]
    rw [hostWord_data, BitVec.extractLsb'_append_eq_right]
  | startV g =>
    rw [encode, decode_h36, decodeHost_startV (by simp) (by simp), hostWord_data, BitVec.extractLsb'_append_eq_left]
    rw [hostWord_data, BitVec.extractLsb'_append_eq_right]
  | wr r d =>
    have hrow := wellFormed_wr_iff.1 hi
    rw [encode, decode_h36, decodeHost_wr (by simp) (by rwa [hostWord_idx, hostWord_data]), hostWord_idx, hostWord_data,
      CReg.ofIndex_index]
  | rd r g =>
    rw [encode, decode_h36, decodeHost_rd (by simp), hostWord_idx, hostWord_data, CReg.ofIndex_index]
  | _ => rfl

/-- Every host word is the word of the well-formed instruction it decodes to. -/
theorem encode_decodeHost (w : HostWord) :
    encode (decodeHost w) = .h36 w ∧ (decodeHost w).wellFormed = true := by
  have heta := hostWord_eta w
  cases hwe : w.we with
  | false =>
    rw [decodeHost_rd hwe, encode, CReg.index_ofIndex]
    rw [hwe] at heta
    exact ⟨congrArg CodeWord.h36 heta, rfl⟩
  | true =>
    rw [hwe] at heta
    by_cases hrow : w.idx = 0 → w.data.getLsbD 0 = false
    · rw [decodeHost_wr hwe hrow, encode, wellFormed_wr_iff, CReg.index_ofIndex]
      exact ⟨congrArg CodeWord.h36 heta, hrow⟩
    · obtain ⟨hidx, hbit⟩ := Classical.not_imp.1 hrow
      rw [hidx] at heta
      rcases lowBits_of_bit0 (Bool.eq_true_of_not_eq_false hbit) with hlo | hlo
      · rw [decodeHost_startS hwe hidx hlo, encode, data_eq_append hlo]
        exact ⟨congrArg CodeWord.h36 heta, rfl⟩
      · rw [decodeHost_startV hwe hidx hlo, encode, data_eq_append hlo]
        exact ⟨congrArg CodeWord.h36 heta, rfl⟩

/-- Every micro-operation is well formed. -/
theorem wellFormed_of_encode_m4 {i : Instr} {c : UopCode} (h : encode i = .m4 c) : i.wellFormed = true := by
  cases i with
  | wr => cases h
  | _ => rfl

/-- Settles O9, format by format: the code map is read back, and every host word is. -/
theorem everyDecodedWordEncodesBack : Obligations.EveryDecodedWordEncodesBack := by
  intro c i h
  cases c with
  | m4 code =>
    have hcode := decodeUop_eq_ok h
    exact ⟨hcode, wellFormed_of_encode_m4 hcode⟩
  | h36 w =>
    obtain rfl := Except.ok.inj h
    exact encode_decodeHost w

/-! ## Match and mask (spec/30_encoding.md R95) -/

/-- The mask of the START rows keeps the write bit, the index and the two lowest data bits. -/
theorem startMask_eq_iff {w : HostWord} {lo : BitVec 2} :
    w &&& 0xF00000003 = hostWord 1 0 (0#30 ++ lo) ↔
      w.we = true ∧ w.idx = 0 ∧ w.data.extractLsb' 0 2 = lo := by
  have hmask : (0xF00000003 : HostWord) = hostWord 1 (BitVec.allOnes 3) (0#30 ++ BitVec.allOnes 2) := by decide
  have hwe : BitVec.ofBool w.we &&& 1 = 1 ↔ w.we = true := by cases w.we <;> decide
  have hdata : w.data &&& (0#30 ++ BitVec.allOnes 2) = 0#30 ++ w.data.extractLsb' 0 2 := by
    conv_lhs => rw [← data_eq_append (d := w.data) rfl]
    rw [BitVec.and_append, BitVec.and_zero, BitVec.and_allOnes]
  conv_lhs => rw [← hostWord_eta w]
  rw [hmask, hostWord_and, hostWord_inj, hwe, BitVec.and_allOnes, hdata, BitVec.append_right_inj]

/-- The mask of the rows WR and RD keeps the write bit. -/
theorem writeMask_eq_iff {w : HostWord} {b : Bool} :
    w &&& 0x800000000 = hostWord (BitVec.ofBool b) 0 0 ↔ w.we = b := by
  have hmask : (0x800000000 : HostWord) = hostWord 1 0 0 := by decide
  have hwe : BitVec.ofBool w.we &&& 1 = BitVec.ofBool b ↔ w.we = b := by cases w.we <;> cases b <;> decide
  conv_lhs => rw [← hostWord_eta w]
  rw [hmask, hostWord_and, hostWord_inj, hwe]
  simp

/-- Settles O10: each match and mask says of the word's fields what the row's condition says. -/
theorem hostMapByMatchAndMask : Obligations.HostMapByMatchAndMask := by
  intro w
  -- The written-out masks and matches are, by evaluation, those built from the fields.
  have hS : w &&& 0xF00000003 = 0x800000001 ↔ _ := startMask_eq_iff (lo := 0b01#2)
  have hV : w &&& 0xF00000003 = 0x800000003 ↔ _ := startMask_eq_iff (lo := 0b11#2)
  have hW : w &&& 0x800000000 = 0x800000000 ↔ _ := writeMask_eq_iff (b := true)
  have hR : w &&& 0x800000000 = 0x000000000 ↔ _ := writeMask_eq_iff (b := false)
  rw [Ne, Ne, hS, hV, hW, hR, ← data_ignoredBits]
  refine ⟨fun ⟨hwe, hidx, hlo⟩ => decodeHost_startS hwe hidx hlo,
    fun ⟨hwe, hidx, hlo⟩ => decodeHost_startV hwe hidx hlo, fun hnS hnV hwe => decodeHost_wr hwe fun hidx => ?_,
    decodeHost_rd⟩
  by_contra hbit
  rcases lowBits_of_bit0 (Bool.eq_true_of_not_eq_false hbit) with hlo | hlo
  · exact hnS ⟨hwe, hidx, hlo⟩
  · exact hnV ⟨hwe, hidx, hlo⟩

/-- Settles O11, word by word. -/
theorem writtenOutWordsDecode : Obligations.WrittenOutWordsDecode := by
  unfold Obligations.WrittenOutWordsDecode
  decide

/-! ## Reserved codes (spec/30_encoding.md R97) -/

theorem decodeUop_eq_reserved_iff {code : UopCode} :
    decodeUop code = .error (.reservedCode code) ↔ 0xA ≤ code.toNat := by
  have key : ∀ c : UopCode, decodeUop c = .error (.reservedCode c) ↔ 0xA ≤ c.toNat := by decide
  exact key code

end Sys2Proof

namespace Sys2Proof.Machine

open Sys2Proof

/-- The engine at a reserved code is refused with that code. -/
theorem fetchEngine_of_reserved {s : State} (h : 0xA ≤ s.upc.toNat) :
    fetchEngine s = .outcome (.refused (.reservedUop s.upc)) := by
  rw [fetchEngine, decode_m4, decodeUop_eq_reserved_iff.2 h]

/-- Settles O12, from the codes that no micro-operation has. -/
theorem reservedCodesAreRefused : Obligations.ReservedCodesAreRefused := by
  refine ⟨fun s hcode hmove => ?_, fun code => decodeUop_eq_reserved_iff, decode_h36⟩
  have hcode' : 0xA ≤ (s.withSchedule s.scheduleAfter).upc.toNat := hcode
  rw [step, fetch_engine hmove, fetchEngine_of_reserved hcode']
  rfl

end Sys2Proof.Machine

/-! SUPPORT. The arithmetic of one element: what each unit answers in each range of its operands, as patterns and as
integers. -/

namespace Sys2Proof.Machine

open Sys2Proof

/-! ## The operands 0, 1 and -1 of the laws below -/

theorem q15_zero_toInt : (0x0000 : Q15).toInt = 0 := by decide

theorem q15_one_toInt : (0x0001 : Q15).toInt = 1 := by decide

theorem q15_minus_one_toInt : (0xFFFF : Q15).toInt = -1 := by decide

/-! ## The product and the sum of a lane (spec/40_arith_units.md R111, R113) -/

/-- Settles O1: the product is exact, and the corners of R124 reach both ends of its range. -/
theorem productExactAndInRange : Obligations.ProductExactAndInRange := by
  refine ⟨fun x y => ?_, by decide, by decide⟩
  rw [qmul_toInt]
  exact ⟨rfl, q15_mul_range x y⟩

/-- Settles O2: the range of the sum is the range of the product, widened by the range of the Q15 addend. -/
theorem laneSumExactAndInRange : Obligations.LaneSumExactAndInRange := by
  refine ⟨fun a x y => ?_, by decide, by decide⟩
  obtain ⟨hplo, hphi⟩ := q15_mul_range x y
  obtain ⟨halo, hahi⟩ := q15_range a
  rw [wadd_qmul_toInt]
  exact ⟨rfl, by omega, by omega⟩

/-! ## The narrower (spec/40_arith_units.md R114) -/

theorem satn_of_gt {s : W32} (h : s.toInt > 32767) : satn s = 0x7FFF := if_pos h

theorem satn_of_lt {s : W32} (h : s.toInt < -32768) : satn s = 0x8000 := by
  rw [satn, if_neg (by omega), if_pos h]

theorem satn_of_mem_range {s : W32} (hlo : -32768 ≤ s.toInt) (hhi : s.toInt ≤ 32767) :
    satn s = s.extractLsb' 0 16 := by
  rw [satn, if_neg (by omega), if_neg (by omega)]

/-- Settles O3, one branch of SATN for each range of the operand. -/
theorem narrowerClampsElsePasses : Obligations.NarrowerClampsElsePasses := by
  refine fun s => ⟨satn_of_gt, satn_of_lt, fun hlo hhi => ?_⟩
  rw [satn_of_mem_range hlo hhi]
  exact ⟨rfl, toInt_low16 hlo hhi⟩

/-! ## The lane function (spec/40_arith_units.md R116, R119 to R121) -/

/-- Settles O4: SATN clamps a sum that WADD and QMUL formed exactly. -/
theorem laneFunctionIsClampedExactSum : Obligations.LaneFunctionIsClampedExactSum :=
  fun a alpha b => ⟨rfl, mac_toInt a alpha b⟩

/-- Settles O5: a clamp meets a bound exactly where its argument reaches it. -/
theorem outputAtBoundIffSumReachesIt : Obligations.OutputAtBoundIffSumReachesIt := by
  intro a alpha b
  rw [mac_toInt]
  generalize a.toInt + alpha.toInt * b.toInt = sum
  refine ⟨le_max_left _ _, max_le (by decide) (min_le_left _ _), ?_, ?_, fun hlo hhi => ?_⟩
  · omega
  · omega
  · rw [min_eq_right hhi.le, max_eq_right hlo.le]

/-- The clamp passes what is a Q15 value already. -/
theorem clamp_q15_toInt (x : Q15) : max (-32768) (min 32767 x.toInt) = x.toInt := by
  obtain ⟨hlo, hhi⟩ := q15_range x
  rw [min_eq_right hhi, max_eq_right hlo]

theorem mac_alpha_zero (a b : Q15) : mac a 0 b = a := by
  apply BitVec.eq_of_toInt_eq
  rw [mac_toInt, q15_zero_toInt, zero_mul, add_zero, clamp_q15_toInt]

/-- Settles O6: the product is `b`, `-b` and 0 at the raw multipliers 1, -1 and 0. -/
theorem laneAtAlphaOneMinusOneZero : Obligations.LaneAtAlphaOneMinusOneZero := by
  refine fun a b => ⟨?_, ?_, mac_alpha_zero a b⟩
  · rw [mac_toInt, q15_one_toInt, one_mul]
  · rw [mac_toInt, q15_minus_one_toInt, neg_one_mul, Int.sub_eq_add_neg]

/-! ## The saturating multiplier (spec/40_arith_units.md R117) -/

/-- QMULS as a clamp of the exact product. -/
theorem qmuls_toInt (x y : Q15) : (qmuls x y).toInt = max (-32768) (min 32767 (x.toInt * y.toInt)) := by
  rw [qmuls, satn_toInt, qmul_toInt]

theorem qmuls_eq_mac_zero (x y : Q15) : qmuls x y = mac 0 x y := by
  apply BitVec.eq_of_toInt_eq
  rw [qmuls_toInt, mac_toInt, q15_zero_toInt, zero_add]

/-- Where the exact product is a Q15 value, QMULS answers that value. -/
theorem qmuls_eq_of_toInt_eq_mul {x y z : Q15} (h : z.toInt = x.toInt * y.toInt) : qmuls x y = z := by
  apply BitVec.eq_of_toInt_eq
  rw [qmuls_toInt, ← h, clamp_q15_toInt]

theorem qmuls_zero (x : Q15) : qmuls x 0 = 0 :=
  qmuls_eq_of_toInt_eq_mul (by rw [q15_zero_toInt, mul_zero])

theorem qmuls_one (x : Q15) : qmuls x 1 = x :=
  qmuls_eq_of_toInt_eq_mul (by rw [q15_one_toInt, mul_one])

/-- Only -32768 has a negation outside Q15. -/
theorem qmuls_minus_one {x : Q15} (h : x ≠ 0x8000) : qmuls x 0xFFFF = -x := by
  have hneg : (-x).toInt = -x.toInt := BitVec.toInt_neg_of_ne_intMin h
  exact qmuls_eq_of_toInt_eq_mul (by rw [hneg, q15_minus_one_toInt, mul_neg_one])

/-- Settles O7: the laws from the clamp of the exact product, the listed values by evaluation. -/
theorem saturatingMultiplierLaws : Obligations.SaturatingMultiplierLaws :=
  ⟨fun x y => ⟨rfl, qmuls_eq_mac_zero x y, qmuls_toInt x y⟩,
    fun x => ⟨qmuls_zero x, qmuls_one x, qmuls_minus_one⟩, by decide⟩

end Sys2Proof.Machine

/-! SUPPORT. The lane datapath: what a lane micro-operation leaves in the lanes, what VSTY leaves in memory, and the
pass of a run from SETVL to VSTY put together from them (spec/41_lane_uops.md). -/

namespace Sys2Proof.Machine

open Sys2Proof

/-! ## A store of elements that does not run past the top of the address space -/

section
variable {c : Config} {m : Memory} {p : Word} {vs : List Q15}

/-- An element reads as the value stored to it. -/
theorem elem_storeElems (hm : Memory.wf m) (hp : p.toNat + 2 * vs.length ≤ 2 ^ c.aw) {i : Nat} (hi : i < vs.length) :
    Memory.elem c (Memory.storeElems c p 0 vs m) p i = vs[i] := by
  obtain ⟨hlo, hhi⟩ := Memory.read_storeElems (c := c) (p := p) (i := 0) hm (by omega) hi
  rw [Nat.zero_add] at hlo hhi
  rw [Memory.elem_eq (by omega), hlo, hhi, Memory.halves]

/-- The bytes below and above the stored elements read as before. -/
theorem read_storeElems_outside (hm : Memory.wf m) (hp : p.toNat + 2 * vs.length ≤ 2 ^ c.aw) {x : Nat}
    (hx : x < p.toNat ∨ p.toNat + 2 * vs.length ≤ x) :
    Memory.read (Memory.storeElems c p 0 vs m) x = Memory.read m x := by
  refine Memory.read_storeElems_of_ne hm fun j _ hj => ?_
  have hfirst : elemAddr c p j = p.toNat + 2 * j := Nat.mod_eq_of_lt (by omega)
  have hsecond : secondByte c (elemAddr c p j) = p.toNat + 2 * j + 1 := by
    rw [hfirst]; exact Nat.mod_eq_of_lt (by omega)
  omega

end

/-! ## The draw and the grant of SETVL (spec/41_lane_uops.md R141) -/

/-- A count of CW bits survives being cut to its register. -/
theorem cutCount_toNat_of_lt {c : Config} {v : Nat} (hcw : c.cw ≤ 32) (hv : v < 2 ^ c.cw) : (cutCount c v).toNat = v := by
  rw [cutCount_toNat hcw, Nat.mod_eq_of_lt hv]

/-- Settles O15: `vl` is a grant of the set, which CW bits hold. -/
theorem setvlGrantsWithinRange : Obligations.SetvlGrantsWithinRange := by
  intro s
  obtain ⟨ds, k, e⟩ := exec_setvl_eq s
  refine ⟨_, e, fun hrem hvlim hbits hcw => ?_, rfl⟩
  have hgrant := grantOf_range s.takeDraw.1 (m := min s.work.rem.toNat s.work.vlim.toNat) (by omega)
  rw [State.withUpc_work, State.withWork_work, cutCount_toNat_of_lt hcw (by omega)]
  exact hgrant

/-- Settles O16: the draw `v - 1` picks the member `v`. -/
theorem everyGrantCanBeDrawn : Obligations.EveryGrantCanBeDrawn := by
  intro s v hbits hcw hpos hle
  refine ⟨v - 1, fun rest => ⟨_, rfl, ?_, rfl⟩⟩
  change (cutCount s.cfg (grantOf (v - 1) (min s.work.rem.toNat s.work.vlim.toNat))).toNat = v
  rw [grantOf_pred hpos hle, cutCount_toNat_of_lt hcw (by omega)]

/-! ## One lane micro-operation (spec/41_lane_uops.md R142 to R146) -/

/-- An update of the active lanes changes the lanes and `upc` only, lane by lane: `g` is `f` where the lane is active
and changes nothing where it is not. -/
theorem next_of_updateLanes {s : State} {o : Host.Outcome State Fault Refusal} {f g : Nat → Lane → Lane} {u : UopCode}
    (ho : o = .next ((s.updateLanes f).withUpc u))
    (hg : ∀ i l, (if i < s.work.vl.toNat then f i l else l) = g i l) :
    ∃ t, o = .next t ∧ t = { s with lanes := t.lanes, upc := u } ∧ t.lanes.length = s.lanes.length ∧
      ∀ i l, s.lanes[i]? = some l → t.lanes[i]? = some (g i l) := by
  refine ⟨_, ho, rfl, mapActive_length _ _ _, fun i l hl => ?_⟩
  rw [State.withUpc_lanes, State.updateLanes_lanes, mapActive_getElem?, hl, Option.map_some, hg]

/-- Settles O17: each load is one update of the active lanes. -/
theorem loadsFillTheActiveLanes : Obligations.LoadsFillTheActiveLanes := fun _ =>
  ⟨fun h => next_of_updateLanes (exec_vlda_of_admitted (groupAdmitted_iff.1 h)) fun _ _ => by split <;> rfl,
    fun h => next_of_updateLanes (exec_vldb_of_admitted (groupAdmitted_iff.1 h)) fun _ _ => by split <;> rfl⟩

/-- Settles O18: each of the two is one update of the active lanes. -/
theorem multiplyAndNarrowPerLane : Obligations.MultiplyAndNarrowPerLane :=
  ⟨rfl, rfl, fun s => ⟨next_of_updateLanes (o := exec .vwmul s) rfl fun _ _ => by split <;> rfl,
    next_of_updateLanes (o := exec .vnsat s) rfl fun _ _ => by split <;> rfl⟩⟩

/-- Settles O19: one update of the active lanes, in which WADD is exact wherever its sum fits. -/
theorem wideningAddPerLane : Obligations.WideningAddPerLane := by
  intro s
  obtain ⟨t, e, hframe, hlen, hlanes⟩ := next_of_updateLanes (o := exec .vwadd s) rfl fun _ _ => rfl
  refine ⟨t, e, hframe, hlen, fun i l hl => ⟨_, hlanes i l hl, ?_, fun htail => ?_, fun hactive hlo hhi => ?_⟩⟩
  · split <;> rfl
  · rw [if_neg (Nat.not_lt.2 htail)]
  · rw [if_pos hactive]
    have hexact : (wadd l.va l.vw).toInt = l.va.toInt + l.vw.toInt := wadd_toInt hlo hhi
    exact ⟨BitVec.eq_of_toInt_eq (hexact.trans (toInt_ofInt32 hlo hhi).symm), hexact⟩

/-! ## The store (spec/41_lane_uops.md R147) -/

/-- Settles O20: VSTY is one store of the active elements of VY. -/
theorem storeWritesTheActiveElements : Obligations.StoreWritesTheActiveElements := by
  intro s hwf hadm
  have hlen := storedValues_length s.work.vl.toNat s.lanes
  refine ⟨_, exec_vsty_of_admitted (groupAdmitted_iff.1 hadm), rfl, fun x hx => ?_, fun htop i l hi hl => ?_⟩
  · refine Memory.read_storeElems_of_ne hwf fun j _ hj => hx j ?_
    rwa [hlen, Nat.zero_add] at hj
  · obtain ⟨hil, rfl⟩ := List.getElem?_eq_some_iff.1 hl
    have hiv : i < ((s.lanes.take s.work.vl.toNat).map Lane.vy).length := by omega
    have hbytes := Memory.read_storeElems (c := s.cfg) (p := s.work.py) (i := 0) hwf (by omega) hiv
    rwa [Nat.zero_add, storedValues_getElem hiv] at hbytes

/-! ## The pass from SETVL to VSTY (spec/41_lane_uops.md R150) -/

/-- Where nothing is scheduled, the first step of a run is the micro-operation whose code is in `upc`. -/
theorem run_succ_of_exec {s t : State} {c : UopCode} {i : Instr} (k : Nat) (hs : s.env.schedule = []) (hu : s.upc = c)
    (hi : decodeUop c = .ok i) (e : exec i s = .next t) :
    Host.Core.run Sys2Proof.core (k + 1) s = Host.Core.run Sys2Proof.core k t := by
  have hstep : Sys2Proof.core.step s = .next t := by
    change step s = .next t
    rw [step, fetch, hs, fetchEngine_of_code hu hi]
    exact e
  simp only [Host.Core.run]
  rw [hstep]

/-- What an active lane holds after VLDA to VNSAT, in terms of the state at VLDA. -/
def State.groupLane (s : State) (i : Nat) (_ : Lane) : Lane :=
  let a := Memory.elem s.cfg s.mem s.work.pa i
  let b := Memory.elem s.cfg s.mem s.work.pb i
  { va := a, vb := b, vw := wadd a (qmul s.work.alphaL b), vy := mac a s.work.alphaL b }

/-- Two updates of the active lanes in a row are one: a lane sees no other lane (spec/41_lane_uops.md R148). -/
theorem updateLanes_updateLanes (s : State) (f g : Nat → Lane → Lane) (u v : UopCode) :
    (((s.updateLanes f).withUpc u).updateLanes g).withUpc v = (s.updateLanes fun i l => g i (f i l)).withUpc v := by
  have hlanes : mapActive s.work.vl.toNat g (mapActive s.work.vl.toNat f s.lanes) =
      mapActive s.work.vl.toNat (fun i l => g i (f i l)) s.lanes := by
    refine List.ext_getElem (by simp) fun i _ _ => ?_
    simp only [mapActive_getElem]
    split <;> rfl
  exact congrArg (fun ls => (s.withLanes ls).withUpc v) hlanes

@[simp] theorem activeLanes_updateLanes (s : State) (f : Nat → Lane → Lane) (u : UopCode) :
    ((s.updateLanes f).withUpc u).activeLanes = s.activeLanes :=
  congrArg (min s.work.vl.toNat) (mapActive_length _ _ _)

/-- A step of a pass that is one more update of the active lanes. -/
theorem run_succ_of_updateLanes {s : State} {f g : Nat → Lane → Lane} {u v : UopCode} {i : Instr} (k : Nat)
    (hs : s.env.schedule = []) (hi : decodeUop u = .ok i)
    (e : exec i ((s.updateLanes f).withUpc u) = .next ((((s.updateLanes f).withUpc u).updateLanes g).withUpc v)) :
    Host.Core.run Sys2Proof.core (k + 1) ((s.updateLanes f).withUpc u) =
      Host.Core.run Sys2Proof.core k ((s.updateLanes fun i l => g i (f i l)).withUpc v) := by
  rw [updateLanes_updateLanes] at e
  exact run_succ_of_exec k hs rfl hi e

/-- The five micro-operations from VLDA to VNSAT. -/
theorem run_vlda_to_vnsat {s : State} (k : Nat) (hs : s.env.schedule = []) (hu : s.upc = 3)
    (ha : elemsAdmitted s.cfg engineReads s.work.pa s.activeLanes = true)
    (hb : elemsAdmitted s.cfg engineReads s.work.pb s.activeLanes = true) :
    Host.Core.run Sys2Proof.core (k + 5) s =
      Host.Core.run Sys2Proof.core k ((s.updateLanes s.groupLane).withUpc 8) := by
  refine (run_succ_of_exec (k + 4) hs hu rfl (exec_vlda_of_admitted ha)).trans ?_
  refine (run_succ_of_updateLanes (k + 3) hs rfl (exec_vldb_of_admitted (by simpa using hb))).trans ?_
  refine (run_succ_of_updateLanes (i := .vwmul) (k + 2) hs rfl rfl).trans ?_
  refine (run_succ_of_updateLanes (i := .vwadd) (k + 1) hs rfl rfl).trans ?_
  exact (run_succ_of_updateLanes (i := .vnsat) k hs rfl rfl).trans rfl

/-- The values VSTY stores at the end of the group, in terms of the state at VLDA. -/
def State.groupResults (s : State) : List Q15 :=
  ((mapActive s.work.vl.toNat s.groupLane s.lanes).take s.work.vl.toNat).map Lane.vy

theorem groupResults_getElem {s : State} {i : Nat} (hi : i < s.groupResults.length) : s.groupResults[i] =
    mac (Memory.elem s.cfg s.mem s.work.pa i) s.work.alphaL (Memory.elem s.cfg s.mem s.work.pb i) := by
  have hi' := hi
  rw [State.groupResults, storedValues_length, mapActive_length] at hi'
  exact (storedValues_getElem hi).trans (congrArg Lane.vy (mapActive_active (by omega) (by omega)))

section
variable {s : State} (h : s.Safe) (hu : s.upc = 3)
include h hu

/-- The facts of a safe run at VLDA: the run's own, the group's range, and what its launch kept. -/
theorem run_facts_at_vlda : s.RunInv ∧
    (1 ≤ s.work.vl.toNat ∧ s.work.vl.toNat ≤ min s.work.rem.toNat s.work.vlim.toNat) ∧ LaunchOk s.cfg s.env.launch := by
  have hrun := h.run (s.busy_iff.2 (by rw [hu]; decide))
  have hgroup := hrun.group (by rw [hu]; decide)
  exact ⟨hrun, hgroup, runInv_launchOk hrun (by omega)⟩

/-- In a safe run there is a result for every element of the group. -/
theorem groupResults_length : s.groupResults.length = s.work.vl.toNat := by
  obtain ⟨hrun, hgroup, -⟩ := run_facts_at_vlda h hu
  have hvlim := hrun.vlim_le
  have hlanes := h.inv.lanes_len
  rw [State.groupResults, storedValues_length, mapActive_length]
  omega

/-- In a safe run the group's part of Y does not run past the top of the address space. -/
theorem group_below_top : s.work.py.toNat + 2 * s.work.vl.toNat ≤ 2 ^ s.cfg.aw := by
  obtain ⟨hrun, hgroup, hlaunch⟩ := run_facts_at_vlda h hu
  have hend := bufferAdmitted_end hlaunch.yAdmitted
  have hrem := hrun.rem_le
  have hpy := hrun.py_at
  rw [pointerAt_eq hlaunch.yAdmitted (by omega)] at hpy
  omega

/-- The pass of a safe run from VLDA on, where nothing is scheduled. -/
theorem run_vlda_to_vsty (hs : s.env.schedule = []) : Host.Core.run Sys2Proof.core 6 s = .next
    (((s.updateLanes s.groupLane).withMem (Memory.storeElems s.cfg s.work.py 0 s.groupResults s.mem)).withUpc 9) := by
  obtain ⟨hrun, hgroup, hlaunch⟩ := run_facts_at_vlda h hu
  have hadm : ∀ {ok p base}, bufferAdmitted s.cfg ok base s.env.launch.n = true →
      p.toNat = pointerAt s.cfg base s.finished → elemsAdmitted s.cfg ok p s.activeLanes = true :=
    run_elemsAdmitted hrun (by omega) (by omega)
  have ha := hadm hlaunch.aAdmitted hrun.pa_at
  have hb := hadm hlaunch.bAdmitted hrun.pb_at
  have hy := hadm hlaunch.yAdmitted hrun.py_at
  have hvsty := exec_vsty_of_admitted (s := (s.updateLanes s.groupLane).withUpc 8) (by simpa using hy)
  exact (run_vlda_to_vnsat 1 hs hu ha hb).trans (run_succ_of_exec 0 hs rfl rfl hvsty)

end

/-- Settles O46: SETVL gives a safe state at VLDA with the group in its range, and the pass from there stores the
results of the group and no other byte. -/
theorem groupStoresTheLaneFunction : Obligations.GroupStoresTheLaneFunction := by
  intro s hsafe hu hs
  obtain ⟨ds, k, e⟩ := exec_setvl_eq s
  have hsafe' := hsafe.engine ((congrArg runFetched (fetchEngine_of_code hu rfl)).trans e)
  obtain ⟨-, ⟨hpos, hle⟩, -⟩ := run_facts_at_vlda hsafe' rfl
  have hlen := groupResults_length hsafe' rfl
  have htop := group_below_top hsafe' rfl
  rw [← hlen] at htop
  refine ⟨_, (run_succ_of_exec 6 hs hu rfl e).trans (run_vlda_to_vsty hsafe' rfl hs), rfl, hpos, hle,
    fun i hi => ?_, fun x hx => ?_⟩
  · have hi' := hi.trans_eq hlen.symm
    exact (elem_storeElems hsafe'.inv.mem_wf htop hi').trans (groupResults_getElem hi')
  · exact read_storeElems_outside hsafe'.inv.mem_wf htop (by rw [hlen]; exact hx)

end Sys2Proof.Machine

/-! SUPPORT. The sequencer and the host commands: what each answers, and what of the state it leaves alone
(spec/42_engine.md sections 1 and 2). -/

namespace Sys2Proof.Machine

open Sys2Proof

/-! ## The micro-operations of the sequencer (spec/42_engine.md R172, R173) -/

/-- Settles O13, one branch of CHKN for each clause. -/
theorem chknEndsRunExactlyAtZero : Obligations.ChknEndsRunExactlyAtZero :=
  ⟨rfl, fun _ => ⟨fun h => if_pos h, fun h => if_neg h⟩⟩

/-- ADV subtracts exactly where the group is within the count. -/
theorem cutCount_remAfter_toNat {c : Config} {rem vl : Nat} (hcw : c.cw ≤ 32) (hle : vl ≤ rem)
    (hrem : rem < 2 ^ c.cw) : (cutCount c (remAfter rem vl)).toNat = rem - vl := by
  rw [remAfter, if_pos hle, cutCount_toNat_of_lt hcw (by omega)]

/-- Settles O14, from the cuts to AW and to CW bits. -/
theorem advMovesPointersAndCount : Obligations.AdvMovesPointersAndCount := fun _ haw hcw =>
  ⟨_, rfl, cutAddr_toNat haw _, cutAddr_toNat haw _, cutAddr_toNat haw _, cutCount_remAfter_toNat hcw, rfl⟩

/-! ## START (spec/42_engine.md R171, R177, R180) -/

theorem startRun_of_busy {s : State} (hb : s.busy = true) (vec : Bool) : startRun vec s = .next s := if_pos hb

theorem startRun_of_accepted {s : State} (hb : s.busy = false) (hl : launchRefusal s.cfg s.launchArgs = none)
    (vec : Bool) : startRun vec s = .next (s.launched vec) := by
  rw [startRun, hb, hl]
  rfl

/-- A write of CTRL with bit 0 set is a START of the kernel that bit 1 names. -/
theorem exec_wr_ctrl_of_bit0 {d : Word} (hd : d.getLsbD 0 = true) (s : State) :
    exec (.wr .ctrl d) s = startRun (d.getLsbD 1) s := if_pos ⟨rfl, hd⟩

/-- Every other write stores its operand. -/
theorem exec_wr_of_not_start {r : CReg} {d : Word} (h : ¬ (r = .ctrl ∧ d.getLsbD 0 = true)) (s : State) :
    exec (.wr r d) s = .next (s.storeCReg d r) := if_neg h

/-- The two forms of START are the one operation, for the kernel each of them names. -/
theorem exec_of_isStart {i : Instr} (hi : isStart i = true) : ∃ vec, ∀ s, exec i s = startRun vec s := by
  cases i with
  | startS => exact ⟨false, fun _ => rfl⟩
  | startV => exact ⟨true, fun _ => rfl⟩
  | _ => cases hi

/-- The cut to 32 bits loses nothing of the largest group width. -/
theorem vlimOf_toNat {c : Config} (hc : ConfigOk c) (vec : Bool) :
    (vlimOf c vec).toNat = min (if vec && c.hasVector then c.vlmax else 1) (2 ^ c.cw - 1) := by
  have hle := hc.vlmax_le
  rw [vlimOf, BitVec.toNat_ofNat, Nat.mod_eq_of_lt]
  split <;> omega

/-- Settles O23: both forms launch the run, each with its own largest group width. -/
theorem startLatchesTheArguments : Obligations.StartLatchesTheArguments := by
  intro s g hwf hb hl
  have hc := configOk_of_wf hwf
  have hcw : 2 ^ 1 ≤ 2 ^ s.cfg.cw := Nat.pow_le_pow_right (by decide) hc.cw_ge
  refine ⟨_, _, startRun_of_accepted hb hl false, startRun_of_accepted hb hl true, ?_, ?_, ?_⟩
  · change (vlimOf s.cfg false).toNat = 1
    rw [vlimOf_toNat hc, Bool.false_and, if_neg Bool.false_ne_true]
    omega
  · change (vlimOf s.cfg true).toNat = _
    rw [vlimOf_toNat hc, Bool.true_and]
    split <;> omega
  · rintro t (rfl | rfl) <;> rfl

/-- Settles O24: all three spellings are the one START. -/
theorem startWhileBusyIsDropped : Obligations.StartWhileBusyIsDropped := fun s _ _ hb =>
  ⟨startRun_of_busy hb _, startRun_of_busy hb _, fun hd => (exec_wr_ctrl_of_bit0 hd s).trans (startRun_of_busy hb _)⟩

theorem vlimOf_of_no_vector {c : Config} (h : c.hasVector = false) (vec : Bool) : vlimOf c vec = vlimOf c false := by
  rw [vlimOf, vlimOf, h, Bool.and_false, Bool.and_false]

/-- Settles O25: the kernel enters START in the largest group width alone. -/
theorem fallbackIsTheScalarKernel : Obligations.FallbackIsTheScalarKernel := by
  intro s g h
  have hlaunched : s.launched true = s.launched false := by
    rw [State.launched, State.launched, vlimOf_of_no_vector h]
  change startRun true s = startRun false s
  rw [startRun, startRun, hlaunched]

/-! ## WR (spec/42_engine.md R178) -/

/-- A value cut to `w` bits keeps its bits below `w`. -/
theorem getLsbD_ofNat_mod {w : Nat} (hw : w ≤ 32) (v k : Nat) :
    (BitVec.ofNat 32 (v % 2 ^ w)).getLsbD k = (decide (k < w) && v.testBit k) := by
  rw [BitVec.getLsbD_ofNat, Nat.testBit_mod_two_pow, ← Bool.and_assoc, ← Bool.decide_and]
  congr 2
  exact propext ⟨And.right, fun h => ⟨by omega, h⟩⟩

/-- Clearing bit 0 keeps the bits above it. -/
theorem testBit_clear_bit0 (v k : Nat) : (v / 2 * 2).testBit k = (decide (1 ≤ k) && v.testBit k) := by
  cases k with
  | zero => simp
  | succ k => simp [Nat.testBit_succ]

/-- A base register keeps bits AW-1:1 of the operand. -/
theorem cutBase_getLsbD {c : Config} (haw : c.aw ≤ 32) (d : Word) (k : Nat) :
    (cutBase c d).getLsbD k = (decide (1 ≤ k) && decide (k < c.aw) && d.getLsbD k) := by
  rw [cutBase, cutAddr, getLsbD_ofNat_mod haw, testBit_clear_bit0, BitVec.testBit_toNat, ← Bool.and_assoc,
    Bool.and_comm (decide (1 ≤ k))]

/-- Settles O28: a register's operand is cut to its bits, and a write of CTRL is a START where bit 0 is set. -/
theorem wrStoresTheCutOperand : Obligations.WrStoresTheCutOperand := by
  intro s d haw hcw
  have hstore : ∀ r, r ≠ .ctrl → exec (.wr r d) s = .next (s.storeCReg d r) := fun r hr =>
    exec_wr_of_not_start (fun h => hr h.1) s
  refine ⟨⟨_, hstore .n nofun, getLsbD_ofNat_mod hcw _⟩, hstore .alpha nofun,
    ⟨_, cutBase_getLsbD haw d, hstore .aBase nofun, hstore .bBase nofun, hstore .yBase nofun⟩,
    hstore .status nofun, hstore .cap nofun, fun hd => ?_, fun hd g => ?_⟩
  · exact exec_wr_of_not_start (fun h => by rw [hd] at h; exact Bool.false_ne_true h.2) s
  · rw [exec_wr_ctrl_of_bit0 hd]
    cases d.getLsbD 1 <;> rfl

/-! ## RD (spec/42_engine.md R179) -/

/-- Bit 0 of STATUS is BUSY, bit 1 DONE, and no other bit is set (spec/10_state.md R24). -/
theorem statusWord_getLsbD (s : State) (k : Nat) :
    s.statusWord.getLsbD k = ((decide (k = 0) && s.busy) || (decide (k = 1) && s.done)) := by
  rw [State.statusWord, BitVec.getLsbD_append, BitVec.getLsbD_append]
  match k with
  | 0 => simp
  | 1 => simp
  | k + 2 => simp

/-- CAP is VLMAX with HAS_VECTOR in bit 16 (spec/10_state.md R30). -/
theorem capWord_toNat {c : Config} (h : c.vlmax ≤ 65535) :
    (capWord c).toNat = c.vlmax + if c.hasVector then 65536 else 0 := by
  have hmod : c.vlmax % 2 ^ 16 = c.vlmax := Nat.mod_eq_of_lt (by omega)
  rw [capWord, BitVec.toNat_append, BitVec.toNat_ofNat, hmod, ← Nat.shiftLeft_add_eq_or_of_lt (by omega), Nat.add_comm]
  cases c.hasVector <;> rfl

/-- Settles O29: RD returns the register, of which STATUS and CAP are computed. -/
theorem rdReturnsTheRegister : Obligations.RdReturnsTheRegister := fun s _ =>
  ⟨rfl, ⟨_, rfl, statusWord_getLsbD s⟩, rfl, rfl, rfl, rfl, rfl, _, rfl, capWord_toNat⟩

/-! ## The host's accesses as a whole -/

/-- The host accesses are the instructions with a host word (spec/30_encoding.md R95). -/
theorem isUop_of_encode_h36 {i : Instr} {w : HostWord} (h : encode i = .h36 w) : isUop i = false := by
  cases i with
  | startS | startV | wr | rd => rfl
  | _ => cases h

theorem isUop_decodeHost (w : HostWord) : isUop (decodeHost w) = false :=
  isUop_of_encode_h36 (encode_decodeHost w).1

/-- What a host access leaves while the engine is busy: other argument registers, by WR alone, and a return value. -/
def State.withHostSide (s : State) (c : CmdRegs) (r : Option Word) : State :=
  (s.withCmd c).withEnv { s.env with hostRead := r }

/-- While the engine is busy a host access completes and leaves the run alone, and none but WR changes an argument
register. -/
theorem exec_host_of_busy {i : Instr} {s : State} (hi : isUop i = false) (hb : s.busy = true) :
    ∃ c r, exec i s = .next (s.withHostSide c r) ∧ ((∀ reg d, i ≠ .wr reg d) → c = s.cmd) := by
  cases i with
  | startS => exact ⟨s.cmd, s.env.hostRead, startRun_of_busy hb false, fun _ => rfl⟩
  | startV => exact ⟨s.cmd, s.env.hostRead, startRun_of_busy hb true, fun _ => rfl⟩
  | rd => exact ⟨s.cmd, _, rfl, fun _ => rfl⟩
  | wr reg d =>
    by_cases h : reg = .ctrl ∧ d.getLsbD 0 = true
    · obtain ⟨rfl, hd⟩ := h
      exact ⟨s.cmd, s.env.hostRead, (exec_wr_ctrl_of_bit0 hd s).trans (startRun_of_busy hb _), fun _ => rfl⟩
    · obtain ⟨c, hc⟩ := storeCReg_spec s d reg
      exact ⟨c, s.env.hostRead, (exec_wr_of_not_start h s).trans (congrArg _ hc), fun h => absurd rfl (h reg d)⟩
  | _ => cases hi

/-- Settles O34, from the one lemma about the accesses of a busy engine. -/
theorem hostAccessesLeaveTheRunAlone : Obligations.HostAccessesLeaveTheRunAlone := fun _ w hb => by
  obtain ⟨c, r, e, -⟩ := exec_host_of_busy (isUop_decodeHost w) hb
  exact ⟨_, e, rfl⟩

end Sys2Proof.Machine

/-! SUPPORT. A step by the kind of its move, and what each kind does to `upc` (spec/42_engine.md R170, R187, R188). -/

namespace Sys2Proof.Machine

open Sys2Proof

/-! ## A step, move by move (spec/42_engine.md R187) -/

section
variable {s : State} {rest : List Move}

theorem step_of_engineMovesNext (h : s.engineMovesNext) :
    step s = runFetched (fetchEngine (s.withSchedule s.scheduleAfter)) := congrArg runFetched (fetch_engine h)

theorem step_of_access {w : HostWord} (h : s.env.schedule = .access w :: rest) :
    step s = exec (decodeHost w) (s.withSchedule rest) := by
  rw [step, fetch, h]
  rfl

theorem step_of_store {a : Word} {v : Byte} (h : s.env.schedule = .store a v :: rest) :
    step s = hostStore a v (s.withSchedule rest) := by
  rw [step, fetch, h]
  rfl

theorem step_of_load {a : Word} (h : s.env.schedule = .load a :: rest) :
    step s = hostLoad a (s.withSchedule rest) := by
  rw [step, fetch, h]
  rfl

theorem step_of_reset (h : s.env.schedule = .reset :: rest) : step s = .next (applyReset (s.withSchedule rest)) := by
  rw [step, fetch, h]
  rfl

/-- The engine's step runs the micro-operation whose code is in `upc`. -/
theorem step_of_code {i : Instr} (h : s.engineMovesNext) (hi : decodeUop s.upc = .ok i) :
    step s = exec i (s.withSchedule s.scheduleAfter) := by
  rw [step_of_engineMovesNext h, fetchEngine_of_code (State.withSchedule_upc s _) hi]
  rfl

/-- An idle engine has no step of its own (spec/42_engine.md R170). -/
theorem step_of_idle (h : s.engineMovesNext) (hidle : s.busy = false) :
    step s = .next (s.withSchedule s.scheduleAfter) := by
  rw [step_of_engineMovesNext h, fetchEngine, State.withSchedule_upc, s.idle_iff.1 hidle]
  rfl

end

/-- Settles O36: decoding the word of a well-formed instruction gives it back, in either format. -/
theorem stepRunsTheDecodedInstruction : Obligations.StepRunsTheDecodedInstruction := by
  intro s i hi
  have hdecode := everyEncodedInstructionDecodesBack i hi
  refine ⟨fun hmove hcode => ?_, fun w rest hsch hword => ?_, fun hmove hidle => ?_⟩
  · rw [hcode] at hdecode
    exact step_of_code hmove hdecode
  · rw [hword, decode_h36] at hdecode
    rw [step_of_access hsch, Except.ok.inj hdecode]
    rfl
  · exact step_of_idle hmove hidle

/-! ## The host's memory moves (spec/20_memory.md R76; log 14) -/

/-- A host write of memory outside the run's buffers completes. -/
theorem hostStore_of_free {s : State} {a : Word} (v : Byte) (hadm : admits s.cfg hostReaches a.toNat = true)
    (hfree : s.inRunBuffers a.toNat = false) :
    hostStore a v s = .next (s.withMem (Memory.write s.mem a.toNat v)) := by
  rw [hostStore, hadm, hfree]
  rfl

/-- A host write to the run's buffers is refused (X3). -/
theorem hostStore_of_buffer {s : State} {a : Word} (v : Byte) (hadm : admits s.cfg hostReaches a.toNat = true)
    (hrun : s.inRunBuffers a.toNat = true) : hostStore a v s = .refused .hostWritesBuffer := by
  rw [hostStore, hadm, hrun]
  rfl

/-- A host read of memory completes, and returns the byte where the run does not write it. -/
theorem hostLoad_of_reached {s : State} {a : Word} (hadm : admits s.cfg hostReaches a.toNat = true) :
    ∃ k r, hostLoad a s = .next (s.withEnv { s.env with freeCount := k, hostRead := r }) ∧
      (s.inRunOutput a.toNat = false → r = some ((Memory.read s.mem a.toNat).setWidth 32)) := by
  rw [hostLoad, hadm]
  cases s.inRunOutput a.toNat with
  | true => exact ⟨_, _, rfl, nofun⟩
  | false => exact ⟨_, _, rfl, fun _ => rfl⟩

/-- Settles O35, move by move: moving the schedule on changes nothing that the two moves look at. -/
theorem hostMemoryMoves : Obligations.HostMemoryMoves := by
  intro s a v rest hadm
  refine ⟨fun hsch => ⟨fun hrun => ?_, fun hfree hwf => ?_⟩, fun hsch => ?_⟩
  · exact (step_of_store hsch).trans (hostStore_of_buffer v hadm hrun)
  · have hread := Memory.read_write hwf.1 a.toNat v
    exact ⟨_, (step_of_store hsch).trans (hostStore_of_free v hadm hfree), rfl, (hread _).trans (if_pos rfl),
      fun x hx => (hread x).trans (if_neg hx)⟩
  · obtain ⟨k, r, e, hr⟩ := hostLoad_of_reached (s := s.withSchedule rest) hadm
    exact ⟨_, (step_of_load hsch).trans e, rfl, hr⟩

/-! ## What a micro-operation does to the sequencer -/

/-- What no micro-operation changes, though the run depends on it: the configuration, the argument registers, the
schedule, the latched arguments, and the largest group width. -/
structure SameSurroundings (s t : State) : Prop where
  cfg : t.cfg = s.cfg
  cmd : t.cmd = s.cmd
  schedule : t.env.schedule = s.env.schedule
  launch : t.env.launch = s.env.launch
  vlim : t.work.vlim = s.work.vlim

/-- The ways the engine moves from code to code, with what each does to the count (spec/42_engine.md R172, R173,
R188). -/
inductive ControlMove (s t : State) : Prop where
  /-- CHKN that finds no element left. -/
  | ended (code : s.upc = 1) (noneLeft : s.work.rem = 0) (upc : t.upc = 0) (done : t.done = true)
      (rem : t.work.rem = 0)
  /-- CHKN that goes on to SETVL. -/
  | entered (code : s.upc = 1) (left : s.work.rem ≠ 0) (upc : t.upc = 2) (rem : t.work.rem = s.work.rem)
  /-- A micro-operation from SETVL to VSTY falls through. -/
  | fell (low : 2 ≤ s.upc.toNat) (high : s.upc.toNat ≤ 8) (upc : t.upc = s.upc + 1) (rem : t.work.rem = s.work.rem)
  /-- ADV goes back to CHKN. -/
  | advanced (code : s.upc = 9) (upc : t.upc = 1)
      (rem : t.work.rem = cutCount s.cfg (remAfter s.work.rem.toNat s.work.vl.toNat))

/-- A fall-through at a written-out code. -/
theorem ControlMove.fell_of_code {s t : State} {c : UopCode} (hu : s.upc = c) (hc : 2 ≤ c.toNat ∧ c.toNat ≤ 8)
    (upc : t.upc = c + 1) (rem : t.work.rem = s.work.rem) : ControlMove s t := by
  subst hu
  exact .fell hc.1 hc.2 upc rem

/-- The micro-operation at `upc` keeps the surroundings and moves control in one of the ways of the rule. -/
theorem exec_uop_control {i : Instr} {s t : State} (hcode : encode i = .m4 s.upc) (e : exec i s = .next t) :
    SameSurroundings s t ∧ ControlMove s t := by
  have hu : ∀ {c : UopCode}, encode i = .m4 c → s.upc = c := fun h =>
    CodeWord.m4.inj (hcode.symm.trans h)
  cases i with
  | chkn =>
    rcases exec_chkn_next e with ⟨hr, rfl⟩ | ⟨hr, rfl⟩
    · exact ⟨⟨rfl, rfl, rfl, rfl, rfl⟩, .ended (hu rfl) hr rfl rfl hr⟩
    · exact ⟨⟨rfl, rfl, rfl, rfl, rfl⟩, .entered (hu rfl) hr rfl rfl⟩
  | setvl =>
    obtain ⟨ds, k, e'⟩ := exec_setvl_eq s
    obtain rfl := Host.Outcome.next.inj (e'.symm.trans e)
    exact ⟨⟨rfl, rfl, rfl, rfl, rfl⟩, .fell_of_code (hu rfl) (by decide) rfl rfl⟩
  | vlda =>
    obtain ⟨-, rfl⟩ := exec_vlda_next e
    exact ⟨⟨rfl, rfl, rfl, rfl, rfl⟩, .fell_of_code (hu rfl) (by decide) rfl rfl⟩
  | vldb =>
    obtain ⟨-, rfl⟩ := exec_vldb_next e
    exact ⟨⟨rfl, rfl, rfl, rfl, rfl⟩, .fell_of_code (hu rfl) (by decide) rfl rfl⟩
  | vsty =>
    obtain ⟨-, rfl⟩ := exec_vsty_next e
    exact ⟨⟨rfl, rfl, rfl, rfl, rfl⟩, .fell_of_code (hu rfl) (by decide) rfl rfl⟩
  | vwmul => cases e; exact ⟨⟨rfl, rfl, rfl, rfl, rfl⟩, .fell_of_code (hu rfl) (by decide) rfl rfl⟩
  | vwadd => cases e; exact ⟨⟨rfl, rfl, rfl, rfl, rfl⟩, .fell_of_code (hu rfl) (by decide) rfl rfl⟩
  | vnsat => cases e; exact ⟨⟨rfl, rfl, rfl, rfl, rfl⟩, .fell_of_code (hu rfl) (by decide) rfl rfl⟩
  | adv => cases e; exact ⟨⟨rfl, rfl, rfl, rfl, rfl⟩, .advanced (hu rfl) rfl rfl⟩
  | startS | startV | wr | rd => cases hcode

/-! ## The transfers of control (spec/42_engine.md R188) -/

/-- A START moves `upc` from 0x0 to 0x1 or not at all. -/
theorem startRun_upc {vec : Bool} {s t : State} (e : startRun vec s = .next t) :
    t.upc = s.upc ∨ (s.upc = 0 ∧ t.upc = 1) := by
  rcases startRun_next e with ⟨-, rfl⟩ | ⟨hb, -, rfl⟩
  · exact .inl rfl
  · exact .inr ⟨s.idle_iff.1 hb, rfl⟩

/-- Of the host accesses a START alone moves `upc`, and the row WR is none: a word that would be one is a row START. -/
theorem access_upc {w : HostWord} {s t : State} (e : exec (decodeHost w) s = .next t) :
    t.upc = s.upc ∨ (s.upc = 0 ∧ t.upc = 1 ∧ isStart (decodeHost w) = true) := by
  have hwf := (encode_decodeHost w).2
  have hhost := isUop_decodeHost w
  generalize decodeHost w = i at *
  cases i with
  | startS => exact (startRun_upc e).imp_right fun ⟨h0, h1⟩ => ⟨h0, h1, rfl⟩
  | startV => exact (startRun_upc e).imp_right fun ⟨h0, h1⟩ => ⟨h0, h1, rfl⟩
  | wr r d =>
    rcases exec_wr_next e with ⟨rfl, hd, -⟩ | rfl
    · exact absurd ((wellFormed_wr_iff.1 hwf rfl).symm.trans hd) Bool.false_ne_true
    · obtain ⟨c, hc⟩ := storeCReg_spec s d r
      exact .inl (by rw [hc, State.withCmd_upc])
  | rd => cases e; exact .inl rfl
  | _ => cases hhost

/-- The engine's own step moves `upc` along the micro-program or, where it is idle, not at all. -/
theorem engine_upc {s t : State} (e : runFetched (fetchEngine s) = .next t) :
    t.upc = s.upc ∨ (s.upc = 1 ∧ (t.upc = 0 ∨ t.upc = 2)) ∨
      (2 ≤ s.upc.toNat ∧ s.upc.toNat ≤ 8 ∧ t.upc = s.upc + 1) ∨ (s.upc = 9 ∧ t.upc = 1) := by
  rcases engine_next e with ⟨-, rfl⟩ | ⟨i, hcode, hexec⟩
  · exact .inl rfl
  · cases (exec_uop_control hcode hexec).2 with
    | ended code _ upc => exact .inr (.inl ⟨code, .inl upc⟩)
    | entered code _ upc => exact .inr (.inl ⟨code, .inr upc⟩)
    | fell low high upc => exact .inr (.inr (.inl ⟨low, high, upc⟩))
    | advanced code upc => exact .inr (.inr (.inr ⟨code, upc⟩))

/-- Settles O37, by the kind of the next move. -/
theorem onlyTransfersOfControl : Obligations.OnlyTransfersOfControl := by
  intro s t e
  have engine (hmove : s.engineMovesNext) (hne : t.upc ≠ s.upc) :=
    (engine_upc ((step_of_engineMovesNext hmove).symm.trans e)).resolve_left hne
  cases hsch : s.env.schedule with
  | nil => exact ⟨nofun, fun _ hne => .inr ⟨.inl hsch, engine (.inl hsch) hne⟩⟩
  | cons m rest =>
    cases m with
    | engine => exact ⟨nofun, fun _ hne => .inr ⟨.inr ⟨rest, hsch⟩, engine (.inr ⟨rest, hsch⟩) hne⟩⟩
    | access w =>
      refine ⟨nofun, fun _ hne => .inl ?_⟩
      obtain ⟨h0, h1, hstart⟩ := (access_upc ((step_of_access hsch).symm.trans e)).resolve_left hne
      exact ⟨h0, h1, w, rfl, hstart⟩
    | store a v =>
      obtain ⟨-, -, rfl⟩ := hostStore_next ((step_of_store hsch).symm.trans e)
      exact ⟨nofun, fun _ hne => absurd rfl hne⟩
    | load a =>
      obtain ⟨k, v, rfl⟩ := hostLoad_next ((step_of_load hsch).symm.trans e)
      exact ⟨nofun, fun _ hne => absurd rfl hne⟩
    | reset =>
      obtain rfl := Host.Outcome.next.inj ((step_of_reset hsch).symm.trans e)
      exact ⟨fun _ => rfl, fun h => absurd rfl h⟩

end Sys2Proof.Machine

/-! SUPPORT. A run from its START to its end under every quiet schedule: the facts that each move of it keeps, the count
of its steps, and what memory holds at its end (spec/42_engine.md section 4). -/

namespace Sys2Proof.Machine

open Sys2Proof

/-! ## The empty run (spec/42_engine.md R181) -/

/-- Settles O45: the launch of no elements is accepted, and CHKN ends it at once. -/
theorem emptyRunTouchesNothing : Obligations.EmptyRunTouchesNothing := by
  intro s i hi hb hn hsch
  obtain ⟨vec, hexec⟩ := exec_of_isStart hi
  have hmove : (s.launched vec).engineMovesNext := .inl hsch
  have hstart := (hexec s).trans (startRun_of_accepted hb (launchRefusal_of_n_zero s.cfg hn) vec)
  exact ⟨_, _, hstart, statusWord_eq _, (step_of_code (i := .chkn) hmove rfl).trans (if_pos hn), rfl, statusWord_eq _,
    rfl, rfl, rfl⟩

/-! ## Runs that end -/

/-- The run in progress at `s` ends after `k` steps, at `t`, and is busy until then. -/
inductive EndsAfter : Nat → State → State → Prop where
  | ended {t : State} (idle : t.busy = false) (done : t.done = true) : EndsAfter 0 t t
  | step {k : Nat} {s s' t : State} (busy : s.busy = true) (next : step s = .next s') (rest : EndsAfter k s' t) :
      EndsAfter (k + 1) s t

theorem run_succ {s t : State} (k : Nat) (e : step s = .next t) :
    Host.Core.run Sys2Proof.core (k + 1) s = Host.Core.run Sys2Proof.core k t := by
  have e' : Sys2Proof.core.step s = .next t := e
  simp only [Host.Core.run]
  rw [e']

section
variable {k : Nat} {s t : State}

theorem EndsAfter.run (h : EndsAfter k s t) : Host.Core.run Sys2Proof.core k s = .next t := by
  induction h with
  | ended => rfl
  | step _ next _ ih => exact (run_succ _ next).trans ih

theorem EndsAfter.busy_until (h : EndsAfter k s t) :
    ∀ j, j < k → ∃ u, Host.Core.run Sys2Proof.core j s = .next u ∧ u.busy = true := by
  induction h with
  | ended => exact fun j hj => absurd hj (Nat.not_lt_zero j)
  | step busy next _ ih =>
    intro j hj
    cases j with
    | zero => exact ⟨_, rfl, busy⟩
    | succ j =>
      obtain ⟨u, hrun, hu⟩ := ih j (Nat.lt_of_succ_lt_succ hj)
      exact ⟨u, (run_succ j next).trans hrun, hu⟩

theorem EndsAfter.idle (h : EndsAfter k s t) : t.busy = false := by
  induction h with
  | ended idle => exact idle
  | step _ _ _ ih => exact ih

theorem EndsAfter.done (h : EndsAfter k s t) : t.done = true := by
  induction h with
  | ended _ done => exact done
  | step _ _ _ ih => exact ih

/-- An idle engine with nothing scheduled stays as it is. -/
theorem run_of_idle_unscheduled (hidle : s.busy = false) (hsch : s.env.schedule = []) (k : Nat) :
    Host.Core.run Sys2Proof.core k s = .next s := by
  have hself : s.withSchedule s.scheduleAfter = s := by
    rw [State.scheduleAfter, hsch, List.tail_nil, ← hsch, State.withSchedule_self]
  induction k with
  | zero => rfl
  | succ k ih => exact (run_succ k ((step_of_idle (.inl hsch) hidle).trans (by rw [hself]))).trans ih

/-- Where a run is looked at its end, or later with nothing scheduled any more, the state is the one it ended with. -/
theorem EndsAfter.eq_of_idle {k' : Nat} {t' : State} (h : EndsAfter k s t)
    (hrun : Host.Core.run Sys2Proof.core k' s = .next t') (hidle : t'.busy = false)
    (hbefore : ∀ j, j < k' → ∃ u, Host.Core.run Sys2Proof.core j s = .next u ∧
      (u.busy = true ∨ u.env.schedule = [])) : t' = t := by
  induction h generalizing k' with
  | @ended t idle =>
    cases k' with
    | zero => exact (Host.Outcome.next.inj hrun).symm
    | succ k' =>
      obtain ⟨u, hu, hor⟩ := hbefore 0 (Nat.succ_pos k')
      obtain rfl := Host.Outcome.next.inj hu
      have hsch := hor.resolve_left (by rw [idle]; exact Bool.false_ne_true)
      exact (Host.Outcome.next.inj ((run_of_idle_unscheduled idle hsch _).symm.trans hrun)).symm
  | @step k s s' t busy next _ ih =>
    cases k' with
    | zero =>
      obtain rfl := Host.Outcome.next.inj hrun
      exact absurd (hidle.symm.trans busy) Bool.false_ne_true
    | succ k' =>
      refine ih ((run_succ k' next).symm.trans hrun) fun j hj => ?_
      obtain ⟨u, hu, hor⟩ := hbefore (j + 1) (Nat.succ_lt_succ hj)
      exact ⟨u, (run_succ j next).symm.trans hu, hor⟩

end

/-! ## How many steps the engine still takes (spec/42_engine.md R184) -/

/-- Whether the elements left can take `g` passes, each of at least one of them and of at most `vlim`. -/
def State.PassesWithin (s : State) (g : Nat) : Prop :=
  g ≤ s.work.rem.toNat ∧ s.work.rem.toNat ≤ g * s.work.vlim.toNat

/-- The engine's steps from `upc` to the end of a run with `g` passes to finish, the one in progress among them. -/
def State.stepsFor (s : State) (g : Nat) : Nat := 9 * g + 2 - s.upc.toNat

theorem passes_pos {s : State} {g : Nat} (hg : s.PassesWithin g) (hrem : 1 ≤ s.work.rem.toNat) : 1 ≤ g := by
  obtain ⟨-, hle⟩ := hg
  rcases Nat.eq_zero_or_pos g with rfl | hpos
  · rw [Nat.zero_mul] at hle
    omega
  · exact hpos

/-- The code after a code below the last one. -/
theorem code_succ {u : UopCode} (h : u.toNat ≤ 8) : u + 1 ≠ 0 ∧ (u + 1).toNat = u.toNat + 1 := by
  have key : ∀ c : UopCode, c.toNat ≤ 8 → c + 1 ≠ 0 ∧ (c + 1).toNat = c.toNat + 1 := by decide
  exact key u h

/-- The only move that leaves the engine idle is CHKN's at the end of a run. -/
theorem ControlMove.of_idle {s t : State} (m : ControlMove s t) (hidle : t.busy = false) :
    (s.upc = 1 ∧ s.work.rem = 0) ∧ t.done = true ∧ t.work.rem = 0 := by
  have h0 : t.upc = 0 := t.idle_iff.1 hidle
  cases m with
  | ended code noneLeft _ done rem => exact ⟨⟨code, noneLeft⟩, done, rem⟩
  | entered _ _ upc => rw [upc] at h0; exact absurd h0 (by decide)
  | fell _ high upc => rw [upc] at h0; exact absurd h0 (code_succ high).1
  | advanced _ upc => rw [upc] at h0; exact absurd h0 (by decide)

/-- A move of the engine that does not end the run is one step of the count. -/
theorem ControlMove.count {s t : State} {g : Nat} (m : ControlMove s t) (hi : s.Inv) (hr : s.RunInv)
    (hv : t.work.vlim = s.work.vlim) (hb : t.busy = true) (hg : t.PassesWithin g) :
    ∃ g', s.PassesWithin g' ∧ s.stepsFor g' = t.stepsFor g + 1 := by
  cases m with
  | ended _ _ upc => exact absurd upc (t.busy_iff.1 hb)
  | entered code left upc rem =>
    have hpos := passes_pos hg (by
      rw [rem]
      exact Nat.pos_of_ne_zero fun h0 => left (BitVec.eq_of_toNat_eq h0))
    rw [State.PassesWithin, rem, hv] at hg
    refine ⟨g, hg, ?_⟩
    rw [State.stepsFor, State.stepsFor, code, upc]
    change 9 * g + 2 - 1 = 9 * g + 2 - 2 + 1
    omega
  | fell low high upc rem =>
    have hpos := passes_pos hg (by rw [rem]; exact hr.left low)
    rw [State.PassesWithin, rem, hv] at hg
    refine ⟨g, hg, ?_⟩
    rw [State.stepsFor, State.stepsFor, upc, (code_succ high).2]
    omega
  | advanced code upc rem =>
    obtain ⟨hvl, hle⟩ := hr.group (by rw [code]; decide)
    rw [State.PassesWithin, rem, run_adv_rem hi (by omega), hv] at hg
    refine ⟨g + 1, ⟨by omega, by rw [Nat.succ_mul]; omega⟩, ?_⟩
    rw [State.stepsFor, State.stepsFor, code, upc]
    change 9 * (g + 1) + 2 - 9 = 9 * g + 2 - 1 + 1
    omega

/-! ## What each move of a run keeps -/

/-- Whether no access of a schedule is a WR. -/
def NoWrites (ms : List Move) : Prop := ∀ w r d, Move.access w ∈ ms → decodeHost w ≠ .wr r d

/-- `s` is met in the run that an accepted START in `s0` began, before any other START. -/
structure RunOf (s0 s : State) : Prop where
  safe : s.Safe
  cfg : s.cfg = s0.cfg
  launch : s.env.launch = s0.launchArgs
  schedule : s.env.schedule ⊆ s0.env.schedule
  cmd : NoWrites s0.env.schedule → s.cmd = s0.cmd
  progress : Progress s0.mem s0.cmd.alpha s
  ended : s.busy = false → s.done = true ∧ s.work.rem = 0

/-- Progress does not speak of the schedule. -/
theorem Progress.withSchedule {m0 : Memory} {alpha : Q15} {s : State} (h : Progress m0 alpha s) (ms : List Move) :
    Progress m0 alpha (s.withSchedule ms) := ⟨h.alphaL, h.mem, h.va, h.vb, h.product, h.sum, h.vy⟩

/-- Progress does not speak of what the host's accesses change during a run. -/
theorem Progress.withHostSide {m0 : Memory} {alpha : Q15} {s : State} (h : Progress m0 alpha s) (c : CmdRegs)
    (r : Option Word) : Progress m0 alpha (s.withHostSide c r) :=
  ⟨h.alphaL, h.mem, h.va, h.vb, h.product, h.sum, h.vy⟩

theorem runOf_launched {s : State} (h : s.Safe) (hl : launchRefusal s.cfg s.launchArgs = none) (vec : Bool) :
    RunOf s (s.launched vec) where
  safe := ⟨h.inv.launched vec, fun _ => runInv_launched h.inv hl vec⟩
  cfg := rfl
  launch := rfl
  schedule := List.Subset.refl _
  cmd := fun _ => rfl
  progress := progress_launched s vec
  ended := nofun

/-- The two kinds of step of a run under a quiet schedule, with what each does to the count of the steps left. -/
inductive RunStep (s t : State) : Prop where
  /-- A register access of the host, which leaves the run alone. -/
  | access (upc : t.upc = s.upc) (work : t.work = s.work)
      (schedule : s.env.schedule.length = t.env.schedule.length + 1)
  /-- A step of the engine. -/
  | engine (move : ControlMove (s.withSchedule s.scheduleAfter) t) (vlim : t.work.vlim = s.work.vlim)
      (schedule : t.env.schedule.length ≤ s.env.schedule.length)

section
variable {s0 s : State} (h : RunOf s0 s)
include h

theorem RunOf.withSchedule {ms : List Move} (hms : ms ⊆ s.env.schedule) : RunOf s0 (s.withSchedule ms) where
  safe := h.safe.withSchedule ms
  cfg := h.cfg
  launch := h.launch
  schedule := List.Subset.trans hms h.schedule
  cmd := h.cmd
  progress := h.progress.withSchedule ms
  ended := h.ended

/-- The engine's step in a run: it is not refused, and it is one of the moves of control. -/
theorem RunOf.engine (hb : s.busy = true) :
    ∃ t, runFetched (fetchEngine s) = .next t ∧ RunOf s0 t ∧ SameSurroundings s t ∧ ControlMove s t := by
  have hrun := h.safe.run hb
  obtain ⟨t, e, -⟩ := run_engine h.safe.inv hrun hb
  obtain ⟨i, hcode, hexec⟩ := (engine_next e).resolve_left fun hidle => s.busy_iff.1 hb hidle.1
  obtain ⟨hsame, hmove⟩ := exec_uop_control hcode hexec
  refine ⟨t, e, ?_, hsame, hmove⟩
  exact
    { safe := h.safe.engine e
      cfg := hsame.cfg.trans h.cfg
      launch := hsame.launch.trans h.launch
      schedule := by rw [hsame.schedule]; exact h.schedule
      cmd := fun hw => hsame.cmd.trans (h.cmd hw)
      progress := progress_engine h.progress h.safe.inv hrun hb e
      ended := fun hidle => (hmove.of_idle hidle).2 }

/-- A register access of the host in a run. -/
theorem RunOf.access {w : HostWord} (hb : s.busy = true) (hw : Move.access w ∈ s0.env.schedule) :
    ∃ c r, exec (decodeHost w) s = .next (s.withHostSide c r) ∧ RunOf s0 (s.withHostSide c r) := by
  obtain ⟨c, r, e, hc⟩ := exec_host_of_busy (isUop_decodeHost w) hb
  refine ⟨c, r, e, ?_⟩
  exact
    { safe := h.safe.access e
      cfg := h.cfg
      launch := h.launch
      schedule := h.schedule
      cmd := fun hnw => (hc fun reg d => hnw w reg d hw).trans (h.cmd hnw)
      progress := h.progress.withHostSide c r
      ended := fun hidle => absurd (hb.symm.trans hidle) Bool.false_ne_true.symm }

/-- A step of a run under a quiet schedule is not refused, and is of one of the two kinds. -/
theorem RunOf.step (hq : ∀ m ∈ s0.env.schedule, m.isQuiet = true) (hb : s.busy = true) :
    ∃ t, step s = .next t ∧ RunOf s0 t ∧ RunStep s t := by
  by_cases hmove : s.engineMovesNext
  · obtain ⟨t, e, ht, hsame, hctl⟩ := (h.withSchedule (List.tail_subset _)).engine hb
    refine ⟨t, (step_of_engineMovesNext hmove).trans e, ht, .engine hctl hsame.vlim ?_⟩
    rw [hsame.schedule]
    exact (List.tail_sublist _).length_le
  · cases hsch : s.env.schedule with
    | nil => exact absurd (.inl hsch) hmove
    | cons m rest =>
      have hm : m ∈ s0.env.schedule := h.schedule (by rw [hsch]; exact List.mem_cons_self)
      cases m with
      | engine => exact absurd (.inr ⟨rest, hsch⟩) hmove
      | access w =>
        have hrest : rest ⊆ s.env.schedule := by rw [hsch]; exact List.subset_cons_self _ _
        obtain ⟨c, r, e, ht⟩ := (h.withSchedule hrest).access hb hm
        exact ⟨_, (step_of_access hsch).trans e, ht, .access rfl rfl (congrArg List.length hsch)⟩
      | store | load | reset => exact absurd (hq _ hm) Bool.false_ne_true

end

/-! ## The end of a run (spec/42_engine.md R182 to R184) -/

/-- A bound on the steps of the run, of the engine and of the host. -/
def State.stepsLeft (s : State) : Nat := s.stepsFor s.work.rem.toNat + s.env.schedule.length

theorem State.stepsFor_mono (s : State) {g g' : Nat} (h : g ≤ g') : s.stepsFor g ≤ s.stepsFor g' :=
  Nat.sub_le_sub_right (by omega) _

/-- The step of the engine that leaves it idle is the one that no pass is left before. -/
theorem RunOf.last_step {s0 s t : State} {ms : List Move} (ht : RunOf s0 t) (hb : s.busy = true)
    (e : Machine.step s = .next t) (hmove : ControlMove (s.withSchedule ms) t) (hidle : t.busy = false) :
    EndsAfter (s.stepsFor 0) s t ∧ s.PassesWithin 0 := by
  have hlast : s.upc = 1 ∧ s.work.rem = 0 := (hmove.of_idle hidle).1
  constructor
  · rw [State.stepsFor, hlast.1]
    exact .step hb e (.ended hidle (ht.ended hidle).1)
  · rw [State.PassesWithin, hlast.2, Nat.zero_mul]
    exact ⟨Nat.le_refl _, Nat.le_refl _⟩

/-- A run ends, after the steps of its passes and one for each access made meanwhile. -/
theorem RunOf.ends {s0 s : State} (hq : ∀ m ∈ s0.env.schedule, m.isQuiet = true) (h : RunOf s0 s)
    (hb : s.busy = true) : ∃ g a t, EndsAfter (s.stepsFor g + a) s t ∧ RunOf s0 t ∧ s.PassesWithin g ∧
      a ≤ s.env.schedule.length := by
  induction hleft : s.stepsLeft using Nat.strong_induction_on generalizing s with
  | _ left ih =>
    subst hleft
    obtain ⟨s', e, h', hkind⟩ := h.step hq hb
    cases hkind with
    | access hupc hwork hlen =>
      have hb' : s'.busy = true := by rwa [State.busy, hupc]
      have hsteps (g : Nat) : s'.stepsFor g = s.stepsFor g := by rw [State.stepsFor, hupc, State.stepsFor]
      obtain ⟨g, a, t, hend, ht, hg, ha⟩ := ih _ (by
        rw [State.stepsLeft, State.stepsLeft, hsteps, hwork]; omega) h' hb' rfl
      rw [hsteps] at hend
      rw [State.PassesWithin, hwork] at hg
      exact ⟨g, a + 1, t, .step hb e hend, ht, hg, by omega⟩
    | engine hmove hvlim hlen =>
      cases hb' : s'.busy with
      | false =>
        obtain ⟨hend, hg⟩ := h'.last_step hb e hmove hb'
        exact ⟨0, 0, s', hend, h', hg, Nat.zero_le _⟩
      | true =>
        have hsafe := h.safe.withSchedule s.scheduleAfter
        have hcount {g : Nat} (hg : s'.PassesWithin g) :
            ∃ g', s.PassesWithin g' ∧ s.stepsFor g' = s'.stepsFor g + 1 :=
          hmove.count hsafe.inv (hsafe.run hb) hvlim hb' hg
        have hless : s'.stepsLeft < s.stepsLeft := by
          have hvpos := (h'.safe.run hb').vlim_pos
          obtain ⟨g, ⟨hg, -⟩, hsteps⟩ := hcount ⟨Nat.le_refl _, Nat.le_mul_of_pos_right _ hvpos⟩
          have hmono := s.stepsFor_mono hg
          rw [State.stepsLeft, State.stepsLeft]
          omega
        obtain ⟨g', a, t, hend, ht, hg', ha⟩ := ih _ hless h' hb' rfl
        obtain ⟨g, hg, hsteps⟩ := hcount hg'
        refine ⟨g, a, t, ?_, ht, hg, ha.trans hlen⟩
        rw [hsteps, Nat.add_right_comm]
        exact .step hb e hend

/-- A START of either form that the idle engine of a safe state accepts begins a run, which ends. -/
theorem start_run_ends {s : State} {i : Instr} (hi : isStart i = true) (hsafe : s.Safe) (hb : s.busy = false)
    (hl : launchRefusal s.cfg s.launchArgs = none) (hq : ∀ m ∈ s.env.schedule, m.isQuiet = true) :
    ∃ s1 g a t, exec i s = .next s1 ∧ EndsAfter (9 * g + 1 + a) s1 t ∧ RunOf s t ∧
      (g ≤ s.cmd.n.toNat ∧ s.cmd.n.toNat ≤ g * s1.work.vlim.toNat) ∧ a ≤ s.env.schedule.length := by
  obtain ⟨vec, hexec⟩ := exec_of_isStart hi
  obtain ⟨g, a, t, hend, ht, hg, ha⟩ := (runOf_launched hsafe hl vec).ends hq rfl
  exact ⟨_, g, a, t, (hexec s).trans (startRun_of_accepted hb hl vec), hend, ht, hg, ha⟩

/-- Settles O48: with nothing scheduled the run has the steps of its passes alone. -/
theorem runEndsAfterNineStepsAPass : Obligations.RunEndsAfterNineStepsAPass := by
  intro s i hi hsafe hb hl hsch
  obtain ⟨s1, g, a, t, e, hend, ht, ⟨hlow, hhigh⟩, ha⟩ :=
    start_run_ends hi hsafe hb hl fun m hm => by rw [hsch] at hm; cases hm
  have hnone : a = 0 := by rw [hsch] at ha; exact Nat.le_zero.1 ha
  subst hnone
  exact ⟨s1, g, t, e, hend.run, hend.idle, hend.done, (ht.ended hend.idle).2, hend.busy_until, hlow, hhigh⟩

/-! ## Memory at the end of a run (spec/42_engine.md R182) -/

/-- At its end a run has stored every element and changed nothing else. -/
theorem RunOf.mem_at_end {s t : State} (h : RunOf s t) (hidle : t.busy = false) (x : Nat) :
    Memory.read t.mem x = partialByte s.cfg s.mem s.launchArgs s.cmd.alpha s.cmd.n.toNat x := by
  have hne : t.upc ≠ 9 := by rw [t.idle_iff.1 hidle]; decide
  have hall : t.stored = s.cmd.n.toNat := by
    rw [stored_of_ne hne, State.finished, (h.ended hidle).2, h.launch]
    rfl
  rw [h.progress.mem, h.cfg, h.launch, hall]

/-- An element that has been stored is the result for it. -/
theorem elem_of_partialByte {c : Config} {m m0 : Memory} {l : Launch} {alpha : Q15} {k i : Nat}
    (hm : ∀ x, Memory.read m x = partialByte c m0 l alpha k x) (htop : l.yBase.toNat + 2 * k ≤ 2 ^ c.aw)
    (hi : i < k) : Memory.elem c m l.yBase i = resultElem c m0 l alpha i := by
  have hbyte : ∀ o, o < 2 → Memory.read m (l.yBase.toNat + 2 * i + o) = byteOf (resultElem c m0 l alpha i) o := by
    intro o ho
    rw [hm, partialByte, if_pos (by omega), show (l.yBase.toNat + 2 * i + o - l.yBase.toNat) / 2 = i by omega,
      show (l.yBase.toNat + 2 * i + o - l.yBase.toNat) % 2 = o by omega]
  rw [Memory.elem_eq (by omega), hbyte 1 (by decide), ← Nat.add_zero (l.yBase.toNat + 2 * i), hbyte 0 (by decide)]
  exact Memory.halves _

/-- Settles O47: the run ends, and what it has stored at its end is the reference kernel's list, element by element. -/
theorem runLeavesAxpyRefInMemory : Obligations.RunLeavesAxpyRefInMemory := by
  intro s i hi hsafe hb hl hq
  obtain ⟨s1, g, a, t, e, hend, ht, -⟩ := start_run_ends hi hsafe hb hl hq
  have hmem := ht.mem_at_end hend.idle
  refine ⟨s1, _, t, e, hend.run, hend.busy_until, hend.idle, hend.done, ?_, fun x hx => ?_⟩
  · refine List.map_congr_left fun j hj => ?_
    have hj' : j < s.cmd.n.toNat := List.mem_range.1 hj
    have hn : s.launchArgs.n ≠ 0 := fun h0 => by
      have h0' : s.cmd.n = 0 := h0
      rw [h0'] at hj'
      exact Nat.not_lt_zero j hj'
    have htop := bufferAdmitted_end (launchOk_of_none hl hn).yAdmitted
    exact elem_of_partialByte (l := s.launchArgs) hmem htop hj'
  · rw [hmem, partialByte, if_neg]
    change ¬ (s.cmd.yBase.toNat ≤ x ∧ x < s.cmd.yBase.toNat + 2 * s.cmd.n.toNat)
    omega

/-! ## The kernels and the grants agree (spec/42_engine.md R183) -/

/-- Of a configuration, the buffers depend on the address width alone. -/
theorem elem_congr_aw {c c' : Config} (h : c'.aw = c.aw) (m : Memory) (base : Word) (i : Nat) :
    Memory.elem c' m base i = Memory.elem c m base i := by
  rw [Memory.elem, Memory.elem, Memory.read16, Memory.read16, secondByte, secondByte, elemAddr, elemAddr, h]

theorem partialByte_congr_aw {c c' : Config} (h : c'.aw = c.aw) (m0 : Memory) (l : Launch) (alpha : Q15) (k x : Nat) :
    partialByte c' m0 l alpha k x = partialByte c m0 l alpha k x := by
  rw [partialByte, partialByte, resultElem, resultElem, elem_congr_aw h, elem_congr_aw h]

/-- A run looked at as R183 looks at it is looked at its end. -/
theorem runOf_of_looked_at {s s1 t : State} {i : Instr} {k : Nat} (hi : isStart i = true) (hsafe : s.Safe)
    (hb : s.busy = false) (hq : ∀ m ∈ s.env.schedule, m.isQuiet = true) (e : exec i s = .next s1)
    (hrun : Host.Core.run Sys2Proof.core k s1 = .next t)
    (hbefore : ∀ j, j < k → ∃ u, Host.Core.run Sys2Proof.core j s1 = .next u ∧
      (u.busy = true ∨ u.env.schedule = []))
    (hidle : t.busy = false) : RunOf s t := by
  obtain ⟨vec, hexec⟩ := exec_of_isStart hi
  obtain ⟨-, hl, -⟩ := (startRun_next ((hexec s).symm.trans e)).resolve_left fun hbusy =>
    Bool.false_ne_true (hb.symm.trans hbusy.1)
  obtain ⟨s1', _, _, t', e', hend, ht, -⟩ := start_run_ends hi hsafe hb hl hq
  obtain rfl := Host.Outcome.next.inj (e.symm.trans e')
  obtain rfl := hend.eq_of_idle hrun hidle hbefore
  exact ht

/-- Settles O49: both ends hold the same bytes, those of the launch, of which neither kernel nor grants are a part. -/
theorem kernelsAndGrantsAgree : Obligations.KernelsAndGrantsAgree := by
  intro s s' s1 s1' t t' i i' k k' hi hi' hsafe hsafe' hb hb' hq hq' haw hcmd hmem e e' hrun hrun' hbef hbef' hidle
    hidle'
  have ht := runOf_of_looked_at hi hsafe hb hq e hrun hbef hidle
  have ht' := runOf_of_looked_at hi' hsafe' hb' hq' e' hrun' hbef' hidle'
  have hlaunch : s'.launchArgs = s.launchArgs := by rw [State.launchArgs, hcmd, State.launchArgs]
  refine ⟨Memory.ext ht.safe.inv.mem_wf ht'.safe.inv.mem_wf fun x => ?_, (ht.ended hidle).1, (ht'.ended hidle').1,
    ht.cmd, fun hw => (ht'.cmd hw).trans hcmd⟩
  rw [ht.mem_at_end hidle, ht'.mem_at_end hidle', hlaunch, hcmd, hmem, partialByte_congr_aw haw]

end Sys2Proof.Machine

/-! SUPPORT. The reset input: what it clears, what it keeps (spec/70_reset_and_hazards.md R230, R231). -/

namespace Sys2Proof.Machine

open Sys2Proof

section
variable (s : State)

@[simp] theorem applyReset_upc : (applyReset s).upc = 0 := rfl
@[simp] theorem applyReset_done : (applyReset s).done = false := rfl
@[simp] theorem applyReset_cmd : (applyReset s).cmd = CmdRegs.reset := rfl
@[simp] theorem applyReset_cfg : (applyReset s).cfg = s.cfg := rfl
@[simp] theorem applyReset_mem : (applyReset s).mem = s.mem := rfl
@[simp] theorem applyReset_schedule : (applyReset s).env.schedule = s.env.schedule := rfl

/-- The engine is idle, so the run in progress is abandoned. -/
@[simp] theorem applyReset_busy : (applyReset s).busy = false := rfl

@[simp] theorem applyReset_lanes_length : (applyReset s).lanes.length = s.cfg.vlmax := by
  rw [applyReset, List.length_map, List.length_range]

/-- STATUS is 0, both of its flags being clear. -/
theorem applyReset_readCReg_status : (applyReset s).readCReg .status = 0 := by
  simp [State.readCReg, statusWord_eq]

/-- CAP is a word of the configuration, which the reset input keeps. -/
theorem applyReset_readCReg_cap : (applyReset s).readCReg .cap = s.readCReg .cap := rfl

end

/-- Settles O39: the step is the reset input applied to the state with its schedule moved on, read field by field. -/
theorem resetInputAbandonsTheRun : Obligations.ResetInputAbandonsTheRun := by
  intro s rest h
  refine ⟨applyReset (s.withSchedule rest), step_of_reset h, applyReset_upc _, applyReset_done _, applyReset_cmd _, ?cap,
    applyReset_readCReg_status _, ?mem, ?lanes, ?cfg, ?schedule⟩
  case cap => exact applyReset_readCReg_cap (s.withSchedule rest)
  case mem => rw [applyReset_mem, State.withSchedule_mem]
  case lanes => rw [applyReset_lanes_length, State.withSchedule_cfg]
  case cfg => rw [applyReset_cfg, State.withSchedule_cfg]
  case schedule => rw [applyReset_schedule, State.withSchedule_schedule]

end Sys2Proof.Machine
